-- ==== Sys2Proof/Word.lean ====
section
/-! DEFINITION. The word type of the machine and its plainest arithmetic (`00_scope.md` R5 to R10). -/

namespace Sys2Proof

/-- A Word: "16-bit unsigned value; all arithmetic on registers and addresses wraps modulo 2^16" (R9).
It is the width of a register, a memory word, an address and an instruction (R5). -/
abbrev Word := BitVec 16

/-- A character on either collaborator port: `CHAR_BITS` = 8 (R5, R14; decision D8, log entry 16). -/
abbrev Character := BitVec 8

/-- `x[i]` is chosen by an unsigned 3-bit selector, so every selector names a register (R21, R94). -/
abbrev RegNum := BitVec 3

end Sys2Proof
end

