-- ==== Sys2Proof/Config.lean ====
section
/-! DEFINITION. What is fixed for the machine and appears in no instruction's effect: the values that
`Machine/State.lean` gives the state after reset, and the one free value. The parameters that instructions use (device
addresses, trap vectors) stand in `Machine/Params.lean`; the opcode numbers stand in `Decode.lean`. -/

namespace Sys2Proof.Config

/-- `START_PC`: the value Reset gives the pc (R5, R240; stated by the source). -/
def startPc : Word := 0x3000#16

/-- What a memory address that the state does not list reads as.
DESIGN CHOICE (log entry 2): the spec leaves memory unspecified until LoadImage, and recommends that a
loader puts zero where its file has nothing (R40, D13). -/
def unlistedWord : Word := 0#16

/-- The characters of an endless input about which nothing is known: a free value, the `k`-th character for every `k`
(R14, R183; log entry 6). -/
opaque freeCharacter : Nat → Character

/-- The default of the open parameter `IN_PROMPT`: the 19 characters `Enter a character: ` (R5, R187).
PRESUMED (log entry 12): the spec takes it from general knowledge; it is only the value the field
`State.inPrompt` has after reset. -/
def defaultInPrompt : List Character :=
  [0x45#8, 0x6e#8, 0x74#8, 0x65#8, 0x72#8, 0x20#8, 0x61#8, 0x20#8, 0x63#8, 0x68#8,
   0x61#8, 0x72#8, 0x61#8, 0x63#8, 0x74#8, 0x65#8, 0x72#8, 0x3a#8, 0x20#8]

end Sys2Proof.Config
end

