-- ==== Sys2Proof/Machine/Params.lean ====
section
/-! DEFINITION. The parameters that instructions use (`00_scope.md` R5): the three special addresses and the
six trap vectors. -/

namespace Sys2Proof.Machine

/-- `KBSR_ADDR`, the input-status register. PRESUMED (log entry 15): general knowledge in the spec, D4. -/
def kbsrAddr : Word := 0xFE00#16

/-- `KBDR_ADDR`, the input-data register. PRESUMED (log entry 15): general knowledge in the spec, D4. -/
def kbdrAddr : Word := 0xFE02#16

/-- `COUNTER_ADDR`, the cycle counter word at "the highest address" (R37, R59). -/
def counterAddr : Word := 0xFFFF#16

/-- `VEC_GETC` (R103). PRESUMED (log entry 14), as the four vectors after it: D3. -/
def vecGetc : BitVec 8 := 0x20#8
/-- `VEC_OUT` (R103). -/
def vecOut : BitVec 8 := 0x21#8
/-- `VEC_PUTS` (R103). -/
def vecPuts : BitVec 8 := 0x22#8
/-- `VEC_IN` (R103). -/
def vecIn : BitVec 8 := 0x23#8
/-- `VEC_PUTSP` (R103). -/
def vecPutsp : BitVec 8 := 0x24#8
/-- `VEC_HALT` (R103; stated by the source). -/
def vecHalt : BitVec 8 := 0x25#8

/-- The six implemented vectors (R99 (c), R103). -/
def serviceVectors : List (BitVec 8) := [vecGetc, vecOut, vecPuts, vecIn, vecPutsp, vecHalt]

/-- Bit 15 of a status read, "character available"; bits 14:0 read as 0 (R54, R56). -/
def charAvailable : Word := 0x8000#16

end Sys2Proof.Machine
end

