-- ==== Sys2Proof/Syntax.lean ====
section
/-! DEFINITION. The instructions: one constructor for each row of `spec/opcode_table.json`. -/

namespace Sys2Proof

/-- An instruction, one constructor a row of the opcode table (R82 to R92, R102, R105).
Register fields are the unsigned 3-bit selectors (R94); immediates and offsets are kept as the fields
they are, and sign-extended where they are used (R93). Ignored bits (R96) are dropped, but for bits 11:8
of a TRAP: an unknown vector records the whole instruction word (R32, R190; log entry 11). -/
inductive Instr where
  /-- `BR[n][z][p] #off9` (R88, R160); `NOP` is this with no letter (R104). -/
  | br (n z p : Bool) (off : BitVec 9)
  /-- `ADD DR,SR1,SR2` (R83, R131). -/
  | addReg (dr sr1 sr2 : RegNum)
  /-- `ADD DR,SR1,#imm5` (R84, R132). -/
  | addImm (dr sr1 : RegNum) (imm : BitVec 5)
  /-- `LD DR,#off9` (R86, R141). -/
  | ld (dr : RegNum) (off : BitVec 9)
  /-- `ST SR,#off9` (R86, R145). -/
  | st (sr : RegNum) (off : BitVec 9)
  /-- `JSR #off11` (R90, R163). -/
  | jsr (off : BitVec 11)
  /-- `JSRR BaseR` (R90, R164). -/
  | jsrr (base : RegNum)
  /-- `AND DR,SR1,SR2` (R83, R133). -/
  | andReg (dr sr1 sr2 : RegNum)
  /-- `AND DR,SR1,#imm5` (R84, R134). -/
  | andImm (dr sr1 : RegNum) (imm : BitVec 5)
  /-- `LDR DR,BaseR,#off6` (R87, R143). -/
  | ldr (dr base : RegNum) (off : BitVec 6)
  /-- `STR SR,BaseR,#off6` (R87, R147). -/
  | str (sr base : RegNum) (off : BitVec 6)
  /-- `RTI` (R92, R165). -/
  | rti
  /-- `NOT DR,SR` (R85, R135). -/
  | notReg (dr sr : RegNum)
  /-- `LDI DR,#off9` (R86, R142). -/
  | ldi (dr : RegNum) (off : BitVec 9)
  /-- `STI SR,#off9` (R86, R146). -/
  | sti (sr : RegNum) (off : BitVec 9)
  /-- `JMP BaseR` (R89, R161); `RET` is `JMP R7` (R162). -/
  | jmp (base : RegNum)
  /-- `RES` (R92, R166). -/
  | res
  /-- `LEA DR,#off9` (R86, R144). -/
  | lea (dr : RegNum) (off : BitVec 9)
  /-- `TRAP xVV` (R91, R180): `ign` is bits 11:8, `vec` bits 7:0. -/
  | trap (ign : BitVec 4) (vec : BitVec 8)
  /-- `GETC` = `TRAP x20` (R103, R184). -/
  | getc
  /-- `OUT` = `TRAP x21` (R103, R185). -/
  | out
  /-- `PUTS` = `TRAP x22` (R103, R186). -/
  | puts
  /-- `IN` = `TRAP x23` (R103, R187). -/
  | in_
  /-- `PUTSP` = `TRAP x24` (R103, R188). -/
  | putsp
  /-- `HALT` = `TRAP x25` (R103, R189). -/
  | halt
  deriving DecidableEq, Repr

end Sys2Proof
end

