-- ==== Sys2Proof/WellFormed.lean ====
section
/-! DEFINITION. Which terms of `Instr` are the decoding of a word. -/

namespace Sys2Proof

/-- Every operand field has exactly the width of its encoding, so one check is left: a `trap` term names no
vector of a service, since such a word decodes to that service's own constructor (R105; log entry 11). -/
def Instr.wellFormed : Instr → Bool
  | .trap _ vec => !Machine.serviceVectors.contains vec
  | .br .. | .addReg .. | .addImm .. | .ld .. | .st .. | .jsr .. | .jsrr .. | .andReg .. | .andImm ..
  | .ldr .. | .str .. | .rti | .notReg .. | .ldi .. | .sti .. | .jmp .. | .res | .lea ..
  | .getc | .out | .puts | .in_ | .putsp | .halt => true

end Sys2Proof
end

