-- ==== Sys2Proof/Decode.lean ====
section
/-! DEFINITION. The bit-field functions, the decoder (total: every 16-bit word is an instruction, R81, R97) and
after it the encoder. The opcode numbers and every field position but the opcode's and the trap vector's are
general knowledge in the spec (D1, D2). PRESUMED: log entry 13. -/

namespace Sys2Proof

/-! ### Bit fields -/

/-- `w[hi:lo]`, right-justified (R6). -/
def bits (w : Word) (hi lo : Nat) : BitVec (hi - lo + 1) := w.extractLsb hi lo

/-- `w[i]` as a truth value (R6, R95). -/
def bit (w : Word) (i : Nat) : Bool := w.getLsbD i

/-- The one error of the extraction functions: `lo > hi` or a bit position outside 0..15 (R11, R213). -/
inductive FieldError where
  | invalidFieldRequest
  deriving DecidableEq, Repr

/-- The positions a field request may have (R11). -/
def validField (hi lo : Nat) : Bool := decide (lo ≤ hi) && decide (hi ≤ 15)

/-- The source's `extractUnsigned(word, hi, lo)` (R6). -/
def extractUnsigned (w : Word) (hi lo : Nat) : Except FieldError Word :=
  if validField hi lo then .ok ((bits w hi lo).setWidth 16) else .error .invalidFieldRequest

/-- The source's `extractSigned(word, hi, lo)`: the sign is the top bit of the selected field (R7, C9). -/
def extractSigned (w : Word) (hi lo : Nat) : Except FieldError Word :=
  if validField hi lo then .ok ((bits w hi lo).signExtend 16) else .error .invalidFieldRequest

/-! ### The decoder -/

/-- The TRAP word's second decoding: one of the six services, else the plain TRAP (R103, R105). -/
def decodeTrap (ign : BitVec 4) (vec : BitVec 8) : Instr :=
  if vec = Machine.vecGetc then .getc
  else if vec = Machine.vecOut then .out
  else if vec = Machine.vecPuts then .puts
  else if vec = Machine.vecIn then .in_
  else if vec = Machine.vecPutsp then .putsp
  else if vec = Machine.vecHalt then .halt
  else .trap ign vec

/-- Dispatch on `ir[15:12]` (R81, R82, R115), with the fields of R83 to R92. -/
def decode (w : Word) : Instr :=
  match (bits w 15 12).toNat with
  | 0x0 => .br (bit w 11) (bit w 10) (bit w 9) (bits w 8 0)
  | 0x1 => if bit w 5 then .addImm (bits w 11 9) (bits w 8 6) (bits w 4 0)
           else .addReg (bits w 11 9) (bits w 8 6) (bits w 2 0)
  | 0x2 => .ld (bits w 11 9) (bits w 8 0)
  | 0x3 => .st (bits w 11 9) (bits w 8 0)
  | 0x4 => if bit w 11 then .jsr (bits w 10 0) else .jsrr (bits w 8 6)
  | 0x5 => if bit w 5 then .andImm (bits w 11 9) (bits w 8 6) (bits w 4 0)
           else .andReg (bits w 11 9) (bits w 8 6) (bits w 2 0)
  | 0x6 => .ldr (bits w 11 9) (bits w 8 6) (bits w 5 0)
  | 0x7 => .str (bits w 11 9) (bits w 8 6) (bits w 5 0)
  | 0x8 => .rti
  | 0x9 => .notReg (bits w 11 9) (bits w 8 6)
  | 0xA => .ldi (bits w 11 9) (bits w 8 0)
  | 0xB => .sti (bits w 11 9) (bits w 8 0)
  | 0xC => .jmp (bits w 8 6)
  | 0xD => .res
  | 0xE => .lea (bits w 11 9) (bits w 8 0)
  | _ => decodeTrap (bits w 11 8) (bits w 7 0)

/-- The decoder on a word numbered as the opcode table numbers it. An instruction is one word (R80), so a
row of more than 16 bits is no instruction; bits above `nbits` are 0. -/
def decodeTableWord (nbits w : Nat) : Option Instr :=
  if nbits ≤ 16 then some (decode (BitVec.ofNat 16 (w % 2 ^ nbits))) else none

/-! ### The encoder -/

/-- The opcode number of R82, bits 15:12. -/
def Instr.opcode : Instr → BitVec 4
  | .br .. => 0x0#4
  | .addReg .. | .addImm .. => 0x1#4
  | .ld .. => 0x2#4
  | .st .. => 0x3#4
  | .jsr .. | .jsrr .. => 0x4#4
  | .andReg .. | .andImm .. => 0x5#4
  | .ldr .. => 0x6#4
  | .str .. => 0x7#4
  | .rti => 0x8#4
  | .notReg .. => 0x9#4
  | .ldi .. => 0xA#4
  | .sti .. => 0xB#4
  | .jmp .. => 0xC#4
  | .res => 0xD#4
  | .lea .. => 0xE#4
  | .trap .. | .getc | .out | .puts | .in_ | .putsp | .halt => 0xF#4

/-- Bits 11:0 of an instruction's word, the ignored bits at the values an assembler writes (R83 to R92, R102). -/
def Instr.operands : Instr → BitVec 12
  | .br n z p off => BitVec.ofBool n ++ BitVec.ofBool z ++ BitVec.ofBool p ++ off
  | .addReg dr sr1 sr2 | .andReg dr sr1 sr2 => dr ++ sr1 ++ 0#1 ++ 0#2 ++ sr2
  | .addImm dr sr1 imm | .andImm dr sr1 imm => dr ++ sr1 ++ 1#1 ++ imm
  | .notReg dr sr => dr ++ sr ++ 0b111111#6
  | .ld r off | .ldi r off | .lea r off | .st r off | .sti r off => r ++ off
  | .ldr r base off | .str r base off => r ++ base ++ off
  | .jmp base => 0#3 ++ base ++ 0#6
  | .jsr off => 1#1 ++ off
  | .jsrr base => 0#1 ++ 0#2 ++ base ++ 0#6
  | .rti | .res => 0#12
  | .trap ign vec => ign ++ vec
  | .getc => 0#4 ++ Machine.vecGetc
  | .out => 0#4 ++ Machine.vecOut
  | .puts => 0#4 ++ Machine.vecPuts
  | .in_ => 0#4 ++ Machine.vecIn
  | .putsp => 0#4 ++ Machine.vecPutsp
  | .halt => 0#4 ++ Machine.vecHalt

/-- The word of an instruction (R102). -/
def encode (i : Instr) : Word := i.opcode ++ i.operands

/-! ### The opcode table as data (R105) -/

/-- One row of the machine-readable table: the words `w` with `w &&& mask = value`. -/
structure OpcodeRow where
  mnemonic : String
  format : String
  value : Word
  mask : Word
  deriving DecidableEq, Repr

/-- Does the row cover the word? -/
def OpcodeRow.covers (row : OpcodeRow) (w : Word) : Bool := w &&& row.mask == row.value

/-- The row's mnemonic and format, which name it. -/
def OpcodeRow.name (row : OpcodeRow) : String × String := (row.mnemonic, row.format)

/-- The 19 decode rows, in the table's order, as its `match` and `mask` give them. -/
def opcodeRows : List OpcodeRow :=
  [⟨"BR", "BR", 0x0000, 0xF000⟩, ⟨"ADD", "OP-R", 0x1000, 0xF020⟩, ⟨"ADD", "OP-I", 0x1020, 0xF020⟩,
   ⟨"LD", "PC9", 0x2000, 0xF000⟩, ⟨"ST", "PC9", 0x3000, 0xF000⟩, ⟨"JSR", "JSR", 0x4800, 0xF800⟩,
   ⟨"JSRR", "JSRR", 0x4000, 0xF800⟩, ⟨"AND", "OP-R", 0x5000, 0xF020⟩, ⟨"AND", "OP-I", 0x5020, 0xF020⟩,
   ⟨"LDR", "BASE6", 0x6000, 0xF000⟩, ⟨"STR", "BASE6", 0x7000, 0xF000⟩, ⟨"RTI", "NONE", 0x8000, 0xF000⟩,
   ⟨"NOT", "NOT", 0x9000, 0xF000⟩, ⟨"LDI", "PC9", 0xA000, 0xF000⟩, ⟨"STI", "PC9", 0xB000, 0xF000⟩,
   ⟨"JMP", "JMP", 0xC000, 0xF000⟩, ⟨"RES", "NONE", 0xD000, 0xF000⟩, ⟨"LEA", "PC9", 0xE000, 0xF000⟩,
   ⟨"TRAP", "TRAP", 0xF000, 0xF000⟩]

/-- The six rows that refine TRAP. -/
def serviceRows : List OpcodeRow :=
  [⟨"GETC", "TRAP", 0xF020, 0xF0FF⟩, ⟨"OUT", "TRAP", 0xF021, 0xF0FF⟩, ⟨"PUTS", "TRAP", 0xF022, 0xF0FF⟩,
   ⟨"IN", "TRAP", 0xF023, 0xF0FF⟩, ⟨"PUTSP", "TRAP", 0xF024, 0xF0FF⟩, ⟨"HALT", "TRAP", 0xF025, 0xF0FF⟩]

/-- The decode row an instruction belongs to. -/
def Instr.decodeRow : Instr → String × String
  | .br .. => ("BR", "BR")
  | .addReg .. => ("ADD", "OP-R")
  | .addImm .. => ("ADD", "OP-I")
  | .ld .. => ("LD", "PC9")
  | .st .. => ("ST", "PC9")
  | .jsr .. => ("JSR", "JSR")
  | .jsrr .. => ("JSRR", "JSRR")
  | .andReg .. => ("AND", "OP-R")
  | .andImm .. => ("AND", "OP-I")
  | .ldr .. => ("LDR", "BASE6")
  | .str .. => ("STR", "BASE6")
  | .rti => ("RTI", "NONE")
  | .notReg .. => ("NOT", "NOT")
  | .ldi .. => ("LDI", "PC9")
  | .sti .. => ("STI", "PC9")
  | .jmp .. => ("JMP", "JMP")
  | .res => ("RES", "NONE")
  | .lea .. => ("LEA", "PC9")
  | .trap .. | .getc | .out | .puts | .in_ | .putsp | .halt => ("TRAP", "TRAP")

/-- The refining row an instruction belongs to, if it is a service. -/
def Instr.serviceRow : Instr → Option (String × String)
  | .getc => some ("GETC", "TRAP")
  | .out => some ("OUT", "TRAP")
  | .puts => some ("PUTS", "TRAP")
  | .in_ => some ("IN", "TRAP")
  | .putsp => some ("PUTSP", "TRAP")
  | .halt => some ("HALT", "TRAP")
  | .br .. | .addReg .. | .addImm .. | .ld .. | .st .. | .jsr .. | .jsrr .. | .andReg .. | .andImm ..
  | .ldr .. | .str .. | .rti | .notReg .. | .ldi .. | .sti .. | .jmp .. | .res | .lea .. | .trap .. => none

end Sys2Proof
end

