-- ==== Sys2Proof/Machine/State.lean ====
section
/-! DEFINITION. The state of one machine instance (`10_state.md` R20), the reasons a step can stop, and the
state after reset. -/

namespace Sys2Proof.Machine

/-- "three booleans {N, Z, P}" (R27). -/
structure Flags where
  n : Bool
  z : Bool
  p : Bool
  deriving DecidableEq, Repr

/-- `RunState`: "enumeration {Stopped, Running}" (R31). -/
inductive RunState where
  | stopped
  | running
  deriving DecidableEq, Repr

/-- What the fault latch records of the one fatal condition (R32, R190): the vector `ir[7:0]`, the address
the TRAP was fetched from, and the whole instruction word. -/
structure UnimplementedTrap where
  vector : BitVec 8
  addr : Word
  word : Word
  deriving DecidableEq, Repr

/-- One answer the input collaborator will give (R14, R17): a ready query answered no, or a character that is
there to be read. The model's own type (log entry 6). -/
inductive InputEvent where
  | notReady
  | char (c : Character)
  deriving DecidableEq, Repr

/-- What the input collaborator does when the listed answers are used up (R14, R183, R216): no further character ever
comes, or one is there at every query for ever: the given characters in turn, or free ones (`Config.freeCharacter`).
The number counts how many of them have been used. The model's own type (log entry 6). -/
inductive InputTail where
  | silent
  | repeating (c : Character) (cs : List Character) (used : Nat)
  | free (used : Nat)
  deriving DecidableEq, Repr

/-- The input collaborator: the answers it will give, oldest first, and what comes after them (log entry 6). -/
structure InputSource where
  listed : List InputEvent
  tail : InputTail
  deriving DecidableEq, Repr

/-- The two services that can wait inside `InRead()` (R124). The model's own type (log entry 8). -/
inductive BlockedRead where
  | getc
  | in_
  deriving DecidableEq, Repr

/-- A service that a step has begun and not completed: it waits inside `InRead()` (R124; log entry 8), or its string
walk goes on at an address (R186, R188, R216; log entry 9). The model's own type. -/
inductive Suspended where
  | read (k : BlockedRead)
  | puts (a : Word)
  | putsp (a : Word)
  deriving DecidableEq, Repr

/-- One word of memory at a word address: "word-addressed (index == address, no byte sub-addressing)" (R35,
R51). DESIGN CHOICE (log entry 1): a cell is a word, since the spec has no smaller unit and no byte order. -/
abbrev Cell := Nat × Word

/-- Memory: the words that differ from what an unlisted address reads as, addresses strictly rising. -/
abbrev Memory := List Cell

/-- The state of R20, the two collaborators of R14, and what a step that has not completed needs (R124, R216). -/
structure State where
  /-- `x[0..7]` (R21). -/
  regs : Vector Word 8
  /-- `pc` (R24). -/
  pc : Word
  /-- `N`, `Z`, `P` (R27). -/
  flags : Flags
  /-- `RunState` (R31). -/
  runState : RunState
  /-- `M`, with the KBDR latch and the counter in it (R35, R36, R37). -/
  mem : Memory
  /-- The sticky fault latch (R32). -/
  fault : Option UnimplementedTrap
  /-- The image-present flag (R33). -/
  loaded : Bool
  /-- The input collaborator's coming answers (R14; the model's own, log entry 6). -/
  input : InputSource
  /-- The characters the output collaborator has received, oldest first (R14, R70; the model's own, log entry 7). -/
  output : List Character
  /-- The service that the step has begun and not completed, if any (R124, R186; the model's own, log entries 8
  and 9). -/
  waiting : Option Suspended
  /-- The open parameter `IN_PROMPT` (R5, R187); nothing writes it (the model's own, log entry 12). -/
  inPrompt : List Character
  deriving DecidableEq, Repr

/-- Why a step can stop with a fault: there is no reason. The one fatal condition is state that the spec describes
(R118; log entry 10), nothing else faults (R214), and a service that never ends only never completes (R216). -/
inductive Fault where
  deriving DecidableEq, Repr

/-- Why a step, or a host operation, is given no meaning. -/
inductive Refusal where
  /-- Raised by an arm of `exec` whose instruction has no meaning yet; safe. No arm raises it. -/
  | notModelled (mnemonic : String)
  /-- Raised by a Step on a machine with no image loaded, whose fetched word is unspecified (R40, U2: "give a
  Step on an unloaded machine no meaning"); safe (log entry 5). -/
  | stepBeforeLoadImage
  /-- Raised by a host operation while a Step has not completed (R125, U6: "not modelled, the host has no such
  move"); safe (log entry 18). -/
  | hostOverlap
  deriving DecidableEq, Repr

/-- The machine right after Construct and Reset (R39 to R41, R240): no image is loaded yet (log entry 4). -/
def State.reset : State where
  regs := #v[0#16, 0#16, 0#16, 0#16, 0#16, 0#16, 0#16, 0#16]
  pc := Config.startPc
  flags := ⟨false, false, false⟩
  runState := .stopped
  mem := []
  fault := none
  loaded := false
  input := ⟨[], .silent⟩
  output := []
  waiting := none
  inPrompt := Config.defaultInPrompt

end Sys2Proof.Machine
end

