-- ==== Sys2Proof/Machine/Ops.lean ====
section
/-! DEFINITION. The named operations over registers, memory and the two collaborator ports, the commit of the
pc, the cycle counter, and taking the one fatal condition. -/

namespace Sys2Proof.Machine

/-! ### Memory as a list of words -/

/-- The word at an address; an unlisted address reads as `Config.unlistedWord`. -/
def Memory.read : Memory → Nat → Word
  | [], _ => Config.unlistedWord
  | c :: m, a => if c.1 = a then c.2 else Memory.read m a

/-- Puts a cell before the first one of a higher address. -/
def Memory.insert (a : Nat) (v : Word) : Memory → Memory
  | [] => [(a, v)]
  | c :: m => if a < c.1 then (a, v) :: c :: m else c :: Memory.insert a v m

/-- Takes an address out of the list. -/
def Memory.erase (m : Memory) (a : Nat) : Memory := m.filter fun c => c.1 != a

/-- Stores one word, keeping the canonical form: a word equal to what an unlisted address reads as is not listed. -/
def Memory.write (m : Memory) (a : Nat) (v : Word) : Memory :=
  if v = Config.unlistedWord then m.erase a else (m.erase a).insert a v

/-- The canonical form: addresses strictly rising, all of them 16-bit, no entry equal to what an unlisted
address reads as. -/
abbrev Memory.wf (m : Memory) : Prop :=
  m.Pairwise (fun c d => c.1 < d.1) ∧ ∀ c ∈ m, c.1 < 65536 ∧ c.2 ≠ Config.unlistedWord

/-- Memory whose word at every address is the one a total array gives (LoadImage's array, R110). -/
@[irreducible] def Memory.ofImage (image : Word → Word) : Memory :=
  ((List.range 65536).map fun a => (a, image (BitVec.ofNat 16 a))).filter fun c => c.2 != Config.unlistedWord

/-! ### Registers -/

/-- `x[r]` (R12). Reading never faults (R22). -/
def State.reg (s : State) (r : RegNum) : Word := s.regs[r.toNat]

/-- `x[r] <- v` (R12); no register is hard-wired (R22). -/
def State.setReg (s : State) (r : RegNum) (v : Word) : State :=
  { s with regs := s.regs.set r.toNat v }

/-! ### Storage words -/

/-- `M[a]`, raw storage without device behaviour (R13). -/
def State.word (s : State) (a : Word) : Word := s.mem.read a.toNat

/-- `M[a] <- v`, raw storage (R13). -/
def State.setWord (s : State) (a v : Word) : State := { s with mem := s.mem.write a.toNat v }

/-! ### The collaborator ports (R14) -/

/-- A character in a register or a memory word: `zext_16(c)` (R8, R182). -/
def zext (c : Character) : Word := c.setWidth 16

/-- The character of the low byte of a word, `w[7:0]` (R182). -/
def lowByte (w : Word) : Character := w.extractLsb 7 0

/-- The second character of a PUTSP word, `w[15:8]` (R182, R188). -/
def highByte (w : Word) : Character := w.extractLsb 15 8

/-- The next character after the listed answers, if one ever comes. -/
def InputTail.next : InputTail → Option (Character × InputTail)
  | .silent => none
  | .repeating c cs used => some ((c :: cs).getD (used % (cs.length + 1)) c, .repeating c cs (used + 1))
  | .free used => some (Config.freeCharacter used, .free (used + 1))

/-- The next answer of the input collaborator, if it has another than "not ready" for ever. -/
def InputSource.next (i : InputSource) : Option (InputEvent × InputSource) :=
  match i.listed with
  | e :: l => some (e, { i with listed := l })
  | [] => i.tail.next.map fun r => (.char r.1, ⟨[], r.2⟩)

/-- The first character among listed answers, and the answers after it. -/
def firstChar : List InputEvent → Option (Character × List InputEvent)
  | [] => none
  | .notReady :: rest => firstChar rest
  | .char c :: rest => some (c, rest)

/-- `InRead()`: the next character and the answers after it, or nothing while none is there (R14, R183).
Ready queries the collaborator would have answered no are passed over: the read waits for the character. -/
def nextChar (i : InputSource) : Option (Character × InputSource) :=
  match firstChar i.listed with
  | some (c, l) => some (c, { i with listed := l })
  | none => i.tail.next.map fun r => (r.1, ⟨[], r.2⟩)

/-- `OutWrite(c)` (R14): the sink receives the character. -/
def outWrite (c : Character) (s : State) : State := { s with output := s.output ++ [c] }

/-- A sequence of `OutWrite` calls in order (R70). -/
def outWriteAll (cs : List Character) (s : State) : State := { s with output := s.output ++ cs }

/-! ### The access primitives (R54, R55) -/

/-- A read of the input-status register (R54, R56): `InReady()`, and if a character is there, `InRead()` and the
latch. The answer to the ready query is used up. -/
def readStatus (s : State) : Word × State :=
  match s.input.next with
  | none => (0#16, s)
  | some (.notReady, rest) => (0#16, { s with input := rest })
  | some (.char c, rest) => (charAvailable, { s with input := rest }.setWord kbdrAddr (zext c))

/-- `MemRead(a, 1)` (R54): total, with the device behaviour at `KBSR_ADDR` only (R57, R59, R69). -/
def memRead (a : Word) (s : State) : Word × State :=
  if a = kbsrAddr then readStatus s else (s.word a, s)

/-- `MemWrite(a, 1, v)` (R55): total, storage at every address (R58). -/
def memWrite (a v : Word) (s : State) : State := s.setWord a v

/-! ### The program counter -/

/-- `npc = pc + 1 mod 2^16`, what every handler sees (R24, R114). -/
def State.npc (s : State) : Word := s.pc + 1#16

/-- The commit `pc <- target` (R116), for an instruction that set `npc` to `target`. -/
def commit (target : Word) (s : State) : State := { s with pc := target }

/-- The commit of an instruction that left `npc` alone (R25, R116). -/
def advance (s : State) : State := commit s.npc s

/-! ### The fatal condition (R15, R118, R220) -/

/-- `raise UnimplementedTrap(vector, addr, word)` and the fatal path: the latch and RunState change, and
nothing else does; in particular the pc is not committed (R118). There is no return from it (R222): only
Reset clears the latch. -/
def raiseUnimplementedTrap (vector : BitVec 8) (word : Word) (s : State) : State :=
  { s with fault := some ⟨vector, s.pc, word⟩, runState := .stopped }

/-! ### The cycle counter (R37, R117) -/

/-- `M[0xFFFF] <- M[0xFFFF] + 1 mod 2^16`, on the storage word. -/
def countStep (s : State) : State := s.setWord counterAddr (s.word counterAddr + 1#16)

end Sys2Proof.Machine
end

