-- ==== Sys2Proof/Machine/Flags.lean ====
section
/-! DEFINITION. The condition flags: how a value sets them and how BR tests them (`10_state.md` R27 to R30). -/

namespace Sys2Proof.Machine

/-- The flags of a value: `N = v[15]`, `Z = (v == 0)`, `P = (v[15] == 0 and v != 0)` (R28). -/
def flagsOf (v : Word) : Flags :=
  ⟨v.getLsbD 15, v == 0#16, !v.getLsbD 15 && v != 0#16⟩

/-- `setcc(v)`: all three flags are written (R28). -/
def setcc (v : Word) (s : State) : State := { s with flags := flagsOf v }

/-- What every setting operation does with its result: `x[DR] <- v; setcc(v)` (R29). -/
def writeResult (dr : RegNum) (v : Word) (s : State) : State := setcc v (s.setReg dr v)

/-- BR's condition `(n && N) || (z && Z) || (p && P)` (R95, R160). -/
def branchTaken (n z p : Bool) (f : Flags) : Bool := (n && f.n) || (z && f.z) || (p && f.p)

end Sys2Proof.Machine
end

