-- ==== Sys2Proof/Machine/Operands.lean ====
section
/-! DEFINITION. The operand forms: sign-extended fields and the effective addresses (`30_encoding.md` R93,
`42_loads_stores.md` R140). All sums are mod 2^16 (R62). -/

namespace Sys2Proof.Machine

/-- `sext5`, `sext6`, `sext9`, `sext11`: a signed field as a word (R7, R93). -/
def sext {n : Nat} (field : BitVec n) : Word := field.signExtend 16

/-- PC-relative: "(PC after fetch) + sign-extended offset" (R140). -/
def pcRelative {n : Nat} (off : BitVec n) (s : State) : Word := s.npc + sext off

/-- Base plus offset: `x[BaseR] + sext6(offset6)` (R140). -/
def baseOffset (base : RegNum) (off : BitVec 6) (s : State) : Word := s.reg base + sext off

/-- Indirect: the pointer read through `MemRead`, which may be a device read (R140, R142, R146). -/
def indirect (off : BitVec 9) (s : State) : Word × State := memRead (pcRelative off s) s

end Sys2Proof.Machine
end

