-- ==== Sys2Proof/Machine/Control.lean ====
section
/-! DEFINITION. Control transfer and placeholders: BR, JMP, JSR, JSRR, RTI, RES (`43_control.md`). -/

namespace Sys2Proof.Machine

/-- The return address of JSR and JSRR goes to `x[7]` (R22, R163, R164). -/
def linkReg : RegNum := 7#3

/-- BR (R160). -/
def execBr (n z p : Bool) (off : BitVec 9) (s : State) : Host.Outcome State Fault Refusal :=
  .next (commit (if branchTaken n z p s.flags then pcRelative off s else s.npc) s)

/-- JMP (R161); RET is this with `BaseR = 7` (R162). -/
def execJmp (base : RegNum) (s : State) : Host.Outcome State Fault Refusal :=
  .next (commit (s.reg base) s)

/-- JSR (R163): "PC-after-fetch plus sign-extended offset" and nothing more (C7). -/
def execJsr (off : BitVec 11) (s : State) : Host.Outcome State Fault Refusal :=
  .next (commit (pcRelative off s) (s.setReg linkReg s.npc))

/-- JSRR (R164): `x[7]` is written first, and the base is read after it. -/
def execJsrr (base : RegNum) (s : State) : Host.Outcome State Fault Refusal :=
  let s' := s.setReg linkReg s.npc
  .next (commit (s'.reg base) s')

/-- What the two placeholders share: nothing but the commit (R98). -/
def noOperation (s : State) : Host.Outcome State Fault Refusal := .next (advance s)

/-- RTI (R165): no privilege check, no stack, nothing restored. -/
def execRti (s : State) : Host.Outcome State Fault Refusal := noOperation s

/-- RES (R166): no illegal-opcode fault. -/
def execRes (s : State) : Host.Outcome State Fault Refusal := noOperation s

end Sys2Proof.Machine
end

