-- ==== Sys2Proof/Machine/LoadStore.lean ====
section
/-! DEFINITION. Data movement: LD, LDI, LDR, LEA, ST, STI, STR (`42_loads_stores.md`). -/

namespace Sys2Proof.Machine

/-- What the loads share: `v <- MemRead(ea, 1); x[DR] <- v; setcc(v)`, then the commit. -/
def loadFrom (dr : RegNum) (ea : Word) (s : State) : Host.Outcome State Fault Refusal :=
  let (v, s') := memRead ea s
  .next (advance (writeResult dr v s'))

/-- What the stores share: `MemWrite(ea, 1, x[SR])`, then the commit; no flag and no register changes. -/
def storeTo (sr : RegNum) (ea : Word) (s : State) : Host.Outcome State Fault Refusal :=
  .next (advance (memWrite ea (s.reg sr) s))

/-- LD (R141). -/
def execLd (dr : RegNum) (off : BitVec 9) (s : State) : Host.Outcome State Fault Refusal :=
  loadFrom dr (pcRelative off s) s

/-- LDI: the pointer read, then the data read (R142). -/
def execLdi (dr : RegNum) (off : BitVec 9) (s : State) : Host.Outcome State Fault Refusal :=
  let (ea, s') := indirect off s
  loadFrom dr ea s'

/-- LDR (R143). -/
def execLdr (dr base : RegNum) (off : BitVec 6) (s : State) : Host.Outcome State Fault Refusal :=
  loadFrom dr (baseOffset base off s) s

/-- LEA: the address itself is the result; it does set the flags (R144). -/
def execLea (dr : RegNum) (off : BitVec 9) (s : State) : Host.Outcome State Fault Refusal :=
  .next (advance (writeResult dr (pcRelative off s) s))

/-- ST (R145). -/
def execSt (sr : RegNum) (off : BitVec 9) (s : State) : Host.Outcome State Fault Refusal :=
  storeTo sr (pcRelative off s) s

/-- STI: the pointer read, then the write (R146). -/
def execSti (sr : RegNum) (off : BitVec 9) (s : State) : Host.Outcome State Fault Refusal :=
  let (ea, s') := indirect off s
  storeTo sr ea s'

/-- STR (R147). -/
def execStr (sr base : RegNum) (off : BitVec 6) (s : State) : Host.Outcome State Fault Refusal :=
  storeTo sr (baseOffset base off s) s

end Sys2Proof.Machine
end

