-- ==== Sys2Proof/Machine/Operate.lean ====
section
/-! DEFINITION. The operate instructions ADD, AND, NOT (`41_operate.md`). Each is the body of a step's line 3
and its commit (R111). -/

namespace Sys2Proof.Machine

/-- What the five operate instructions share: a result for `x[DR]` and the flags, then the commit. -/
def operate (dr : RegNum) (v : Word) (s : State) : Host.Outcome State Fault Refusal :=
  .next (advance (writeResult dr v s))

/-- ADD, register form (R131). -/
def execAddReg (dr sr1 sr2 : RegNum) (s : State) : Host.Outcome State Fault Refusal :=
  operate dr (s.reg sr1 + s.reg sr2) s

/-- ADD, immediate form (R132). -/
def execAddImm (dr sr1 : RegNum) (imm : BitVec 5) (s : State) : Host.Outcome State Fault Refusal :=
  operate dr (s.reg sr1 + sext imm) s

/-- AND, register form (R133). -/
def execAndReg (dr sr1 sr2 : RegNum) (s : State) : Host.Outcome State Fault Refusal :=
  operate dr (s.reg sr1 &&& s.reg sr2) s

/-- AND, immediate form: the immediate is sign-extended before the AND (R134). -/
def execAndImm (dr sr1 : RegNum) (imm : BitVec 5) (s : State) : Host.Outcome State Fault Refusal :=
  operate dr (s.reg sr1 &&& sext imm) s

/-- NOT (R135). -/
def execNotReg (dr sr : RegNum) (s : State) : Host.Outcome State Fault Refusal :=
  operate dr (~~~ s.reg sr) s

end Sys2Proof.Machine
end

