-- ==== Sys2Proof/Machine/Trap.lean ====
section
/-! DEFINITION. TRAP and the six built-in services (`44_trap.md`). A service runs to completion inside the step
of its TRAP, saves nothing, and continues at `pc + 1` (R180, R181, R219). -/

namespace Sys2Proof.Machine

/-- The operand or result of every service (R22). -/
def serviceReg : RegNum := 0#3

/-- What GETC and IN do with a character once `InRead()` returns it (R184, R187): IN echoes it first. No flag is
set (R29). -/
def finishRead (k : BlockedRead) (c : Character) (s : State) : State :=
  match k with
  | .getc => advance (s.setReg serviceReg (zext c))
  | .in_ => advance ((outWrite c s).setReg serviceReg (zext c))

/-- The blocking `InRead()` of GETC and IN (R124): with a character there the service completes; with none the
step is held in the state after the fetch (and, for IN, after the prompt). -/
def blockingRead (k : BlockedRead) (s : State) : State :=
  match nextChar s.input with
  | none => { s with waiting := some (.read k) }
  | some (c, rest) => finishRead k c { s with input := rest, waiting := none }

/-- GETC (R184). -/
def serviceGetc (s : State) : Host.Outcome State Fault Refusal := .next (blockingRead .getc s)

/-- OUT (R185). -/
def serviceOut (s : State) : Host.Outcome State Fault Refusal :=
  .next (advance (outWrite (lowByte (s.reg serviceReg)) s))

/-- How many words of a string are walked before the walk is suspended: every 65536 of them read the input-status
register once, which ends the string unless a character is used up, so only an endless input, which keeps a string
from ending for ever, can make a walk longer (R54, R186, R216; log entry 9). -/
def walkBound (s : State) : Nat := 65536 * (s.input.listed.length + 1)

/-- The loop of PUTS (R186). -/
def putsLoop : Nat → Word → State → State
  | 0, a, s => { s with waiting := some (.puts a) }
  | fuel + 1, a, s =>
    let (w, s') := memRead a s
    if w = 0#16 then advance s' else putsLoop fuel (a + 1#16) (outWrite (lowByte w) s')

/-- PUTS from an address on. -/
def putsFrom (a : Word) (s : State) : State := putsLoop (walkBound s) a s

/-- PUTS (R186); `x[0]` is read once and not changed. -/
def servicePuts (s : State) : Host.Outcome State Fault Refusal := .next (putsFrom (s.reg serviceReg) s)

/-- IN (R187): prompt, read, echo. -/
def serviceIn (s : State) : Host.Outcome State Fault Refusal :=
  .next (blockingRead .in_ (outWriteAll s.inPrompt s))

/-- The loop of PUTSP (R188): low byte, high byte, next word; the first zero byte ends it. -/
def putspLoop : Nat → Word → State → State
  | 0, a, s => { s with waiting := some (.putsp a) }
  | fuel + 1, a, s =>
    let (w, s') := memRead a s
    if lowByte w = 0#8 then advance s'
    else if highByte w = 0#8 then advance (outWrite (lowByte w) s')
    else putspLoop fuel (a + 1#16) (outWrite (highByte w) (outWrite (lowByte w) s'))

/-- PUTSP from an address on. -/
def putspFrom (a : Word) (s : State) : State := putspLoop (walkBound s) a s

/-- PUTSP (R188); `x[0]` is read once and not changed. -/
def servicePutsp (s : State) : Host.Outcome State Fault Refusal := .next (putspFrom (s.reg serviceReg) s)

/-- What goes on in a service that has not completed: the same read, or the same walk from where it stands. -/
def resumeService (k : Suspended) (s : State) : State :=
  match k with
  | .read k => blockingRead k s
  | .puts a => putsFrom a { s with waiting := none }
  | .putsp a => putspFrom a { s with waiting := none }

/-- HALT (R189): RunState becomes Stopped; the pc is committed like any other. -/
def serviceHalt (s : State) : Host.Outcome State Fault Refusal :=
  .next (advance { s with runState := .stopped })

/-- GETC as an instruction of its own (R103, R184). -/
def execGetc (s : State) : Host.Outcome State Fault Refusal := serviceGetc s
/-- OUT (R103, R185). -/
def execOut (s : State) : Host.Outcome State Fault Refusal := serviceOut s
/-- PUTS (R103, R186). -/
def execPuts (s : State) : Host.Outcome State Fault Refusal := servicePuts s
/-- IN (R103, R187). -/
def execIn (s : State) : Host.Outcome State Fault Refusal := serviceIn s
/-- PUTSP (R103, R188). -/
def execPutsp (s : State) : Host.Outcome State Fault Refusal := servicePutsp s
/-- HALT (R103, R189). -/
def execHalt (s : State) : Host.Outcome State Fault Refusal := serviceHalt s

/-- The whole word of a TRAP, ignored bits with it (R32, R91, R190). -/
def trapWord (ign : BitVec 4) (vec : BitVec 8) : Word := 0xF#4 ++ ign ++ vec

/-- TRAP (R180): dispatch on the vector; a vector without a service takes the fatal path (R190). -/
def execTrap (ign : BitVec 4) (vec : BitVec 8) (s : State) : Host.Outcome State Fault Refusal :=
  if vec = vecGetc then serviceGetc s
  else if vec = vecOut then serviceOut s
  else if vec = vecPuts then servicePuts s
  else if vec = vecIn then serviceIn s
  else if vec = vecPutsp then servicePutsp s
  else if vec = vecHalt then serviceHalt s
  else .next (raiseUnimplementedTrap vec (trapWord ign vec) s)

end Sys2Proof.Machine
end

