-- ==== Sys2Proof/Machine/Engine.lean ====
section
/-! DEFINITION. The step protocol (`40_engine_step.md` R111): the lines of Step around the instruction's own effect.
`exec` does line 3 and the commit of line 4; this file does lines 0, 1, 2 and 5. -/

namespace Sys2Proof.Machine

/-- Line 1: "`Step` transitions to `Running`", whatever the state was (R112). -/
def beginStep (s : State) : State := { s with runState := .running }

/-- Line 2: `ir <- MemRead(pc, 1)`, with the device behaviour of any read (R61, R113). -/
def fetch (s : State) : Word × State := memRead s.pc s

/-- Line 5: the counter, for a step that ran to its end; not on the fatal path (R117, R118) and not while the step
is held in `InRead()` (R124) or in a string that goes on (R216). -/
def finishStep (s : State) : State :=
  if s.fault.isSome || s.waiting.isSome then s else countStep s

/-- Lines 3 to 5: the instruction and what follows it. -/
def runInstr (i : Instr) (s : State) : Host.Outcome State Fault Refusal :=
  match exec i s with
  | .next t => .next (finishStep t)
  | .fault r => .fault r
  | .refused r => .refused r

/-- A step that has not completed goes on (R124, R216): it completes if its character is there or its string ends, and
is suspended again if not. -/
def resumeStep (k : Suspended) (s : State) : Host.Outcome State Fault Refusal :=
  .next (finishStep (resumeService k s))

/-- Lines 1 to 5 for a machine that is neither stopped by a latched fault nor inside a step. A Step on a machine without
an image fetches an unspecified word and is given no meaning (R40, U2; log entry 5). -/
def freshStep (s : State) : Host.Outcome State Fault Refusal :=
  if s.loaded then
    let (ir, s') := fetch (beginStep s)
    runInstr (decode ir) s'
  else .refused .stepBeforeLoadImage

/-- The whole of Step. Line 0: while the fault latch is set nothing changes and the same Fatal is returned
(R119; log entry 10). -/
def stepOnce (s : State) : Host.Outcome State Fault Refusal :=
  if s.fault.isSome then .next s
  else match s.waiting with
    | some k => resumeStep k s
    | none => freshStep s

/-- The machine with one instruction word where the next Step fetches it, and everything that fetch needs: an image
loaded, no latched fault, no suspended service, and a pc that is not the input-status register, whose reads never
return a stored word (R56; log entries 4 and 20). -/
def placeInstruction (w : Word) (s : State) : State :=
  let target := if s.pc = kbsrAddr then Config.startPc else s.pc
  { s with fault := none, waiting := none, loaded := true, pc := target }.setWord target w

end Sys2Proof.Machine
end

