-- ==== Sys2Proof/Machine/Step.lean ====
section
/-! DEFINITION. One step of the machine, and where its next instruction stands. -/

namespace Sys2Proof.Machine

/-- The host operation Step (`40_engine_step.md` R111): "executes exactly one instruction". Its return status is a
function of the state it leaves (R120, `statusOf` in `Machine/HostOps.lean`). -/
def step (s : State) : Host.Outcome State Fault Refusal := stepOnce s

/-- The state with the instruction of bits `w` (bits from `nbits` up are 0) where `step` fetches next; it stands for
a LoadImage (log entry 4). -/
def State.withFetchWord (s : State) (nbits w : Nat) : State :=
  placeInstruction (BitVec.ofNat 16 (w % 2 ^ nbits)) s

end Sys2Proof.Machine
end

