-- ==== Sys2Proof/Machine/HostOps.lean ====
section
/-! DEFINITION. The other host operations (`40_engine_step.md` R110): Construct, LoadImage, Reset, Run, the statuses
they return, and a delivery by the input collaborator. -/

namespace Sys2Proof.Machine

/-- The status Step and Run return (R110, R120, R122). -/
inductive Status where
  | ok
  | halted
  | fatal (f : UnimplementedTrap)
  | missingProgram
  deriving DecidableEq, Repr

/-- Construct (R40): `INIT_PC`, `INIT_FLAGS` are open, so they are arguments; registers are 0, the machine Stopped, no
fault, no image. -/
def construct (initPc : Word) (initFlags : Flags) : State :=
  { State.reset with pc := initPc, flags := initFlags }

/-- A host operation on a machine whose Step is still suspended is not a move the host has (R125, R249; log entry 18). -/
def whenIdle (s : State) (t : State) : Host.Outcome State Fault Refusal :=
  if s.waiting.isSome then .refused .hostOverlap else .next t

/-- LoadImage (R110): every word of memory from a total array, and `loaded`; nothing else. -/
def loadImage (image : Word → Word) (s : State) : Host.Outcome State Fault Refusal :=
  whenIdle s { s with mem := Memory.ofImage image, loaded := true }

/-- What Reset writes (R240): pc, flags, RunState, the fault latch, and nothing else. -/
def resetFields (s : State) : State :=
  { s with pc := Config.startPc, flags := ⟨false, false, false⟩, runState := .stopped, fault := none }

/-- Reset (R240). -/
def hostReset (s : State) : Host.Outcome State Fault Refusal := whenIdle s (resetFields s)

/-- The input collaborator's further answers, after those listed before (R14, R17). -/
def inputArrives (answers : List InputEvent) (s : State) : State :=
  { s with input := { s.input with listed := s.input.listed ++ answers } }

/-- What the input collaborator does once the listed answers are used up (R14, R17, R183). -/
def inputGoesOn (tail : InputTail) (s : State) : State :=
  { s with input := { s.input with tail := tail } }

/-- What Step returns for the state it leaves (R119, R120); nothing yet while it is suspended (R124). -/
def statusOf (s : State) : Option Status :=
  if s.waiting.isSome then none
  else match s.fault with
    | some f => some (.fatal f)
    | none => match s.runState with
      | .stopped => some .halted
      | .running => some .ok

/-- How far a Run has come. -/
inductive RunResult where
  /-- Run has returned this status. -/
  | done (status : Status) (s : State)
  /-- Run has not returned yet (R121, R216): the steps counted are used up. -/
  | going (s : State)
  /-- A step had no next state. -/
  | stuck (why : Fault ⊕ Refusal)
  deriving DecidableEq, Repr

/-- The loop of Run for at most `k` steps: Step first, test after (R121, C6). A step still suspended is taken up
again. -/
def runLoop : Nat → State → RunResult
  | 0, s => .going s
  | k + 1, s =>
    match step s with
    | .fault r => .stuck (.inl r)
    | .refused r => .stuck (.inr r)
    | .next t =>
      match statusOf t with
      | none | some .ok => runLoop k t
      | some st => .done st t

/-- Run (R121), looked at for at most `k` steps: without an image it returns MissingProgram and changes nothing
(R122); it does no Reset. -/
def hostRun (k : Nat) (s : State) : RunResult :=
  if s.waiting.isSome then .stuck (.inr .hostOverlap)
  else if s.loaded then runLoop k s else .done .missingProgram s

end Sys2Proof.Machine
end

