-- ==== Sys2Proof/Safety.lean ====
section
/-! DEFINITION. The terms claims are stated in: what two states share, what the flags say of a value, the spec's tables
of what an instruction writes, the invariant, and a safe run. -/

namespace Sys2Proof

/-! ### The spec's tables of writers -/

/-- The register an instruction can write (R23); a service reached through a plain `trap` term counts too. -/
def Instr.destReg : Instr → Option RegNum
  | .addReg dr _ _ | .addImm dr _ _ | .andReg dr _ _ | .andImm dr _ _ | .notReg dr _
  | .ld dr _ | .ldi dr _ | .ldr dr _ _ | .lea dr _ => some dr
  | .jsr _ | .jsrr _ => some 7#3
  | .getc | .in_ => some 0#3
  | .trap _ vec => if vec = Machine.vecGetc ∨ vec = Machine.vecIn then some 0#3 else none
  | .br .. | .st .. | .sti .. | .str .. | .jmp .. | .rti | .res | .out | .puts | .putsp | .halt => none

/-- The setting operations: "ADD, AND, NOT, LD, LDI, LDR, LEA and no other" (R18, R29). -/
def Instr.setsFlags : Instr → Bool
  | .addReg .. | .addImm .. | .andReg .. | .andImm .. | .notReg .. | .ld .. | .ldi .. | .ldr .. | .lea .. => true
  | .br .. | .st .. | .jsr .. | .jsrr .. | .str .. | .rti | .sti .. | .jmp .. | .res
  | .trap .. | .getc | .out | .puts | .in_ | .putsp | .halt => false

/-- The instructions that can override `npc` (R25). -/
def Instr.overridesPc : Instr → Bool
  | .br .. | .jmp .. | .jsr .. | .jsrr .. => true
  | .addReg .. | .addImm .. | .ld .. | .st .. | .andReg .. | .andImm .. | .ldr .. | .str .. | .rti | .notReg ..
  | .ldi .. | .sti .. | .res | .lea .. | .trap .. | .getc | .out | .puts | .in_ | .putsp | .halt => false

/-- The address an instruction stores to, if it is a store (R53, R145 to R147). -/
def Instr.storesTo : Instr → Machine.State → Option Word
  | .st _ off, s => some (Machine.pcRelative off s)
  | .str _ base off, s => some (Machine.baseOffset base off s)
  | .sti _ off, s => some (Machine.indirect off s).1
  | .br .., _ | .addReg .., _ | .addImm .., _ | .ld .., _ | .jsr .., _ | .jsrr .., _ | .andReg .., _
  | .andImm .., _ | .ldr .., _ | .rti, _ | .notReg .., _ | .ldi .., _ | .jmp .., _ | .res, _ | .lea .., _
  | .trap .., _ | .getc, _ | .out, _ | .puts, _ | .in_, _ | .putsp, _ | .halt, _ => none

namespace Machine

/-! ### What two states share -/

/-- Every general register reads as before. -/
def SameRegs (s t : State) : Prop := ∀ r, t.reg r = s.reg r

/-- Every general register but `dr` reads as before. -/
def SameRegsBut (dr : RegNum) (s t : State) : Prop := ∀ r, r ≠ dr → t.reg r = s.reg r

/-- Every word of memory reads as before. -/
def SameMem (s t : State) : Prop := ∀ a, t.word a = s.word a

/-- Every word of memory but the one at `ea` reads as before. -/
def SameMemBut (ea : Word) (s t : State) : Prop := ∀ a, a ≠ ea → t.word a = s.word a

/-- The image flag and the prompt are as before. -/
def SameSetup (s t : State) : Prop := t.loaded = s.loaded ∧ t.inPrompt = s.inPrompt

/-- RunState, the fault latch, the suspension, the image flag and the prompt are as before. -/
def SameControl (s t : State) : Prop :=
  t.runState = s.runState ∧ t.fault = s.fault ∧ t.waiting = s.waiting ∧ SameSetup s t

/-- Neither collaborator was called. -/
def SamePorts (s t : State) : Prop := t.input = s.input ∧ t.output = s.output

/-! ### Flags -/

/-- The flags say the sign of a value: "negative / zero / positive" of the signed reading (R10, R28). -/
def SignFlags (f : Flags) (v : Word) : Prop :=
  (f.n = true ↔ v.toInt < 0) ∧ (f.z = true ↔ v.toInt = 0) ∧ (f.p = true ↔ 0 < v.toInt)

/-- The four reachable flag states: none, N only, Z only, P only (R27). -/
def Flags.Legal (f : Flags) : Prop :=
  f = ⟨false, false, false⟩ ∨ f = ⟨true, false, false⟩ ∨ f = ⟨false, true, false⟩ ∨ f = ⟨false, false, true⟩

/-! ### The effects instructions share -/

/-- A setting operation's effect on everything but memory and the ports: the result in `x[DR]`, its sign in the flags,
the next pc, and nothing else (R29). -/
def ResultWritten (dr : RegNum) (v : Word) (s t : State) : Prop :=
  t.reg dr = v ∧ SignFlags t.flags v ∧ SameRegsBut dr s t ∧ t.pc = s.pc + 1#16 ∧ SameControl s t

/-- A store's effect: the word at `ea`, the next pc, and nothing else. -/
def WordStored (ea v : Word) (s t : State) : Prop :=
  t.word ea = v ∧ SameMemBut ea s t ∧ SameRegs s t ∧ t.flags = s.flags ∧ t.pc = s.pc + 1#16 ∧
    SamePorts s t ∧ SameControl s t

/-- Nothing changes but the pc. -/
def OnlyPcChanged (target : Word) (s t : State) : Prop :=
  t.pc = target ∧ SameRegs s t ∧ t.flags = s.flags ∧ SameMem s t ∧ SamePorts s t ∧ SameControl s t

/-- An output service's effect: characters sent, the next pc, and nothing else. -/
def CharactersWritten (cs : List Character) (s t : State) : Prop :=
  t.output = s.output ++ cs ∧ t.input = s.input ∧ t.pc = s.pc + 1#16 ∧ SameRegs s t ∧ t.flags = s.flags ∧
    SameMem s t ∧ SameControl s t

/-- What GETC and IN leave once their character `c` has come, the answers after it being `rest` (R184, R187). -/
def CharacterRead (c : Character) (rest : InputSource) (s t : State) : Prop :=
  (t.reg 0#3).toNat = c.toNat ∧ SameRegsBut 0#3 s t ∧ t.flags = s.flags ∧ t.pc = s.pc + 1#16 ∧ SameMem s t ∧
    t.input = rest ∧ t.waiting = none ∧ t.runState = s.runState ∧ t.fault = s.fault ∧ SameSetup s t

/-- A step held in `InRead()`: all state is as it was, and the service that waits is recorded (R124, R183). -/
def HeldFor (k : BlockedRead) (s t : State) : Prop :=
  t.waiting = some (.read k) ∧ t.pc = s.pc ∧ SameRegs s t ∧ t.flags = s.flags ∧ SameMem s t ∧ t.input = s.input ∧
    t.runState = s.runState ∧ t.fault = s.fault ∧ SameSetup s t

/-! ### Input scripts and strings in memory -/

/-- The next character the input collaborator delivers is `c`, after some ready queries answered no: a listed
character, or the first one after the list. -/
def NextCharIs (s : State) (c : Character) (rest : InputSource) : Prop :=
  ∃ k, (∃ l, s.input.listed = List.replicate k .notReady ++ .char c :: l ∧ rest = ⟨l, s.input.tail⟩) ∨
    (s.input.listed = List.replicate k .notReady ∧ ∃ tail, s.input.tail.next = some (c, tail) ∧ rest = ⟨[], tail⟩)

/-- The input collaborator never delivers a character (R183). -/
def NoCharComes (s : State) : Prop := (∀ e ∈ s.input.listed, e = .notReady) ∧ s.input.tail = .silent

/-- The input after its next `k` answers. -/
def InputSource.after : Nat → InputSource → InputSource
  | 0, i => i
  | k + 1, i =>
    match i.next with
    | none => i
    | some (_, rest) => InputSource.after k rest

/-- The answers between the two were used up, from the front. -/
def InputSource.UsedTo (i j : InputSource) : Prop := ∃ k, j = i.after k

/-- At every query for ever a character is ready, and none of them is 0. -/
def InputSource.NeverEnds (i : InputSource) : Prop :=
  ∀ k, ∃ c rest, (i.after k).next = some (.char c, rest) ∧ c ≠ 0#8

/-- The words stand in storage from an address on, addresses wrapping, none of them the input-status register. -/
def StoredAt (s : State) (a : Word) (ws : List Word) : Prop :=
  ∀ k (h : k < ws.length), a + BitVec.ofNat 16 k ≠ kbsrAddr ∧ s.word (a + BitVec.ofNat 16 k) = ws[k]

/-- The loop of PUTS as the spec writes it (R186), from the address `a` in the state `s` to its break. -/
inductive PutsLoopEnds : Word → State → State → Prop where
  | zeroWord (a : Word) (s : State) : (memRead a s).1 = 0#16 → PutsLoopEnds a s (memRead a s).2
  | nextWord (a : Word) (s t : State) : (memRead a s).1 ≠ 0#16 →
      PutsLoopEnds (a + 1#16) (outWrite ((memRead a s).1.extractLsb 7 0) (memRead a s).2) t → PutsLoopEnds a s t

/-- The loop of PUTS has written a number of words, from the address `a` in the state `s`, and not met its break. -/
inductive PutsLoopGoesOn : Nat → Word → State → State → Prop where
  | start (a : Word) (s : State) : PutsLoopGoesOn 0 a s s
  | nextWord (n : Nat) (a : Word) (s t : State) : (memRead a s).1 ≠ 0#16 →
      PutsLoopGoesOn n (a + 1#16) (outWrite ((memRead a s).1.extractLsb 7 0) (memRead a s).2) t →
      PutsLoopGoesOn (n + 1) a s t

/-- What PUTS does in one call of `step` from the address `a` on: it runs its loop to the break, or it stands in the
loop after 65536 words or more (log entry 9). -/
def PutsRuns (a : Word) (s t : State) : Prop :=
  (∃ u, PutsLoopEnds a s u ∧ t = { u with pc := s.pc + 1#16 }) ∨
  ∃ n u, 65536 ≤ n ∧ PutsLoopGoesOn n a s u ∧ t = { u with waiting := some (.puts (a + BitVec.ofNat 16 n)) }

/-- The loop of PUTSP as the spec writes it (R188), from the address `a` in the state `s` to its break. -/
inductive PutspLoopEnds : Word → State → State → Prop where
  | zeroLow (a : Word) (s : State) : (memRead a s).1.extractLsb 7 0 = 0#8 → PutspLoopEnds a s (memRead a s).2
  | zeroHigh (a : Word) (s : State) : (memRead a s).1.extractLsb 7 0 ≠ 0#8 →
      (memRead a s).1.extractLsb 15 8 = 0#8 →
      PutspLoopEnds a s (outWrite ((memRead a s).1.extractLsb 7 0) (memRead a s).2)
  | nextWord (a : Word) (s t : State) : (memRead a s).1.extractLsb 7 0 ≠ 0#8 →
      (memRead a s).1.extractLsb 15 8 ≠ 0#8 →
      PutspLoopEnds (a + 1#16)
        (outWrite ((memRead a s).1.extractLsb 15 8) (outWrite ((memRead a s).1.extractLsb 7 0) (memRead a s).2)) t →
      PutspLoopEnds a s t

/-! ### Where a step stands -/

/-- A machine whose next Step fetches an instruction: an image is loaded, no fault is latched, no service is suspended. -/
def Ready (s : State) : Prop := s.loaded = true ∧ s.fault = none ∧ s.waiting = none

/-- The instruction ran to its end: neither the fatal path nor a suspended service. -/
def Completed (t : State) : Prop := t.fault = none ∧ t.waiting = none

/-! ### The invariant -/

/-- What a fault latch can hold (R32, R118): the word is a TRAP whose vector, bits 7:0, names no service, and its
address is where the pc still stands. -/
def FaultRecord (s : State) (f : UnimplementedTrap) : Prop :=
  f.addr = s.pc ∧ f.vector = lowByte f.word ∧ bits f.word 15 12 = 0xF#4 ∧ f.vector ∉ serviceVectors

/-- What every step keeps. -/
structure State.Inv (s : State) : Prop where
  /-- Memory is in its canonical form. -/
  memWf : s.mem.wf
  /-- The flags are in one of the four reachable states (R27). -/
  flagsLegal : s.flags.Legal
  /-- A latched fault has stopped the machine (R118). -/
  faultStopped : s.fault.isSome = true → s.runState = .stopped ∧ s.waiting = none
  /-- The latch records a TRAP without a service at the pc (R32, R118). -/
  faultRecord : ∀ f, s.fault = some f → FaultRecord s f
  /-- A step that has not completed is running (R112, R124). -/
  waitingRunning : s.waiting.isSome = true → s.runState = .running

/-! ### Runs -/

/-- A safe run: Run returns `Halted`, "the normal, non-error termination path" (R120, R215), within `k` steps. -/
def HaltsWithin (k : Nat) (s t : State) : Prop := hostRun k s = .done .halted t

/-- A run that ends in the fatal condition (R210, R211) within `k` steps. -/
def FaultsWithin (k : Nat) (s t : State) (f : UnimplementedTrap) : Prop := hostRun k s = .done (.fatal f) t

end Machine

end Sys2Proof
end

