-- ==== Sys2Proof/Certificates/Slice0/Obligations.lean ====
section
/-! DEFINITION. The statements for the provers, in the order of the spec's files. -/

open Sys2Proof Sys2Proof.Machine

/-! ### Bit fields (`00_scope.md`) -/

/-- R6: an unsigned field is `floor(w / 2^lo) mod 2^(hi-lo+1)`, below `2^(hi-lo+1)`; `w[i]` is `w[i:i]`. -/
def Obligations.UnsignedFieldValue : Prop :=
  (∀ (w : Word) (hi lo : Nat), lo ≤ hi → hi ≤ 15 →
    ∃ v, extractUnsigned w hi lo = .ok v ∧ v.toNat = w.toNat / 2 ^ lo % 2 ^ (hi - lo + 1) ∧
      v.toNat < 2 ^ (hi - lo + 1)) ∧
  ∀ (w : Word) (i : Nat), i ≤ 15 → ∃ v, extractUnsigned w i i = .ok v ∧ (bit w i = true ↔ v = 1#16)

/-- R7: a signed field keeps its value when its top bit is 0, and has every bit above set when it is 1; the ranges of
`sext5`, `sext6`, `sext9`, `sext11` are those of an n-bit two's-complement number. -/
def Obligations.SignedFieldValue : Prop :=
  (∀ (w : Word) (hi lo : Nat), lo ≤ hi → hi ≤ 15 →
    ∃ v, extractSigned w hi lo = .ok v ∧
      v.toNat =
        (if w.toNat / 2 ^ lo % 2 ^ (hi - lo + 1) < 2 ^ (hi - lo) then w.toNat / 2 ^ lo % 2 ^ (hi - lo + 1)
         else w.toNat / 2 ^ lo % 2 ^ (hi - lo + 1) + (2 ^ 16 - 2 ^ (hi - lo + 1)))) ∧
  (∀ f : BitVec 5, -16 ≤ (sext f).toInt ∧ (sext f).toInt ≤ 15 ∧ (sext f).toInt = f.toInt) ∧
  (∀ f : BitVec 6, -32 ≤ (sext f).toInt ∧ (sext f).toInt ≤ 31 ∧ (sext f).toInt = f.toInt) ∧
  (∀ f : BitVec 9, -256 ≤ (sext f).toInt ∧ (sext f).toInt ≤ 255 ∧ (sext f).toInt = f.toInt) ∧
  ∀ f : BitVec 11, -1024 ≤ (sext f).toInt ∧ (sext f).toInt ≤ 1023 ∧ (sext f).toInt = f.toInt

/-- R11, R213: an extraction fails exactly when `lo > hi` or a position lies outside 0..15. -/
def Obligations.InvalidFieldRequestExactly : Prop :=
  ∀ (w : Word) (hi lo : Nat),
    (extractUnsigned w hi lo = .error .invalidFieldRequest ↔ hi < lo ∨ 15 < hi ∨ 15 < lo) ∧
    (extractSigned w hi lo = .error .invalidFieldRequest ↔ hi < lo ∨ 15 < hi ∨ 15 < lo)

/-! ### Encoding (`30_encoding.md`) -/

/-- Decode and encode agree on every well-formed instruction, with every operand at every value (R102). Opcode numbers
and field positions: log entry 13; service vectors: 14. Which terms are well-formed is log entry 11. -/
def Obligations.DecodeEncodeRoundTrip : Prop :=
  ∀ i : Instr, i.wellFormed = true → decode (encode i) = i

/-- R105: every word matches exactly one of the 19 decode rows, the row of the instruction it decodes to, and the
refining row of a service exactly when it decodes to that service; what is decoded is well-formed. Opcode numbers
and field positions: log entry 13; service vectors: 14. Services as constructors: log entry 11; no word refused: 22. -/
def Obligations.TableRowsPartitionWords : Prop :=
  opcodeRows.length = 19 ∧ serviceRows.length = 6 ∧
  ∀ w : Word,
    (opcodeRows.filter fun row => row.covers w).map OpcodeRow.name = [(decode w).decodeRow] ∧
    (serviceRows.filter fun row => row.covers w).map OpcodeRow.name = (decode w).serviceRow.toList ∧
    (decode w).wellFormed = true

/-- A word of every family, as the spec's examples give it, decodes to the instruction it stands for. Opcode numbers and
field positions: log entry 13; service vectors: 14. Ignored bits are the spec's own D16: log entry 16; bits 11:8
kept in a plain trap: 11. -/
def Obligations.SpecWordsDecode : Prop :=
  decode 0x1042#16 = .addReg 0#3 1#3 2#3 ∧ decode 0x105A#16 = .addReg 0#3 1#3 2#3 ∧
  decode 0x1223#16 = .addImm 1#3 0#3 3#5 ∧ decode 0x907F#16 = .notReg 0#3 1#3 ∧
  decode 0xA001#16 = .ldi 0#3 1#9 ∧ decode 0x607F#16 = .ldr 0#3 1#3 0x3F#6 ∧
  decode 0x71BF#16 = .str 0#3 6#3 0x3F#6 ∧ decode 0x05FD#16 = .br false true false 0x1FD#9 ∧
  decode 0x4804#16 = .jsr 4#11 ∧ decode 0x41C0#16 = .jsrr 7#3 ∧ decode 0xC1C0#16 = .jmp 7#3 ∧
  decode 0x8ABC#16 = .rti ∧ decode 0xFF25#16 = .halt ∧ decode 0xF0FF#16 = .trap 0#4 0xFF#8

/-! ### Flags (`10_state.md`) -/

/-- R28: `setcc` writes the sign of the value; exactly one flag is true for every word; and it changes nothing else. -/
def Obligations.SetccSignRule : Prop :=
  ∀ (v : Word) (s : State),
    SignFlags (setcc v s).flags v ∧
    ((setcc v s).flags.n = true ↔ 0x8000 ≤ v.toNat) ∧ ((setcc v s).flags.z = true ↔ v.toNat = 0) ∧
    ((setcc v s).flags.p = true ↔ 1 ≤ v.toNat ∧ v.toNat ≤ 0x7FFF) ∧
    [(setcc v s).flags.n, (setcc v s).flags.z, (setcc v s).flags.p].count true = 1 ∧
    setcc v s = { s with flags := (setcc v s).flags }

/-! ### Memory and the input registers (`20_memory.md`) -/

/-- R54: `MemRead` at every address but `KBSR_ADDR` returns the storage word and changes nothing; at `KBSR_ADDR` it
returns 0 and changes no machine state when no character is ready, and otherwise returns 0x8000, uses up that one
character and latches it, zero-extended, at `KBDR_ADDR`. The two device addresses and the latching are the spec's
own D4, D5: log entries 15, 16. The list of answers is the model's: log entry 6. -/
def Obligations.MemReadEverywhere : Prop :=
  (∀ (a : Word) (s : State), a ≠ 0xFE00#16 → memRead a s = (s.word a, s)) ∧
  (∀ s : State, s.input.listed = [] → s.input.tail = .silent → memRead 0xFE00#16 s = (0x0000#16, s)) ∧
  (∀ (s : State) (l : List InputEvent), s.input.listed = .notReady :: l →
    memRead 0xFE00#16 s = (0x0000#16, { s with input := { s.input with listed := l } })) ∧
  ∀ (s : State) (c : Character) (rest : InputSource), s.input.next = some (.char c, rest) →
    ∃ t, memRead 0xFE00#16 s = (0x8000#16, t) ∧ t.input = rest ∧ (t.word 0xFE02#16).toNat = c.toNat ∧
      SameMemBut 0xFE02#16 s t ∧ SameRegs s t ∧ t.flags = s.flags ∧ t.pc = s.pc ∧ t.output = s.output ∧
      SameControl s t

/-- R55: `MemWrite` stores the word at every address, leaves every other word alone, and calls no collaborator. -/
def Obligations.MemWriteEverywhere : Prop :=
  ∀ (a v : Word) (s : State),
    (memWrite a v s).word a = v ∧ SameMemBut a s (memWrite a v s) ∧ SamePorts s (memWrite a v s) ∧
    SameRegs s (memWrite a v s) ∧ (memWrite a v s).flags = s.flags ∧ (memWrite a v s).pc = s.pc ∧
    SameControl s (memWrite a v s)

/-- R58: a write to `KBDR_ADDR` is what a later data read returns; after a write to `KBSR_ADDR` every read returns what
it would have returned and leaves every readable word as it would have; neither write reaches a collaborator. The
two addresses and the meaning of a write are the spec's own D4, D6: log entries 15, 16. -/
def Obligations.DeviceWrites : Prop :=
  (∀ (v : Word) (s : State), (memRead 0xFE02#16 (memWrite 0xFE02#16 v s)).1 = v) ∧
  (∀ (v : Word) (s : State), (memWrite 0xFE00#16 v s).word 0xFE00#16 = v ∧
    ∀ a : Word, (memRead a (memWrite 0xFE00#16 v s)).1 = (memRead a s).1 ∧
      SameMemBut 0xFE00#16 (memRead a s).2 (memRead a (memWrite 0xFE00#16 v s)).2) ∧
  ∀ (v : Word) (s : State), SamePorts s (memWrite 0xFE02#16 v s) ∧ SamePorts s (memWrite 0xFE00#16 v s)

/-! ### Operate instructions (`41_operate.md`) -/

/-- R131: ADD, register form. Encoding: log entry 13; the ignored bits are the spec's own D16: log entry 16. -/
def Obligations.AddRegisterForm : Prop :=
  ∀ (dr sr1 sr2 : RegNum) (g : BitVec 2) (s : State),
    decode (0x1#4 ++ dr ++ sr1 ++ 0#1 ++ g ++ sr2) = .addReg dr sr1 sr2 ∧
    ∃ t, exec (.addReg dr sr1 sr2) s = .next t ∧
      (t.reg dr).toNat = ((s.reg sr1).toNat + (s.reg sr2).toNat) % 65536 ∧
      ResultWritten dr (t.reg dr) s t ∧ SameMem s t ∧ SamePorts s t

/-- R132: ADD, immediate form. Encoding: log entry 13. -/
def Obligations.AddImmediateForm : Prop :=
  ∀ (dr sr1 : RegNum) (imm : BitVec 5) (s : State),
    decode (0x1#4 ++ dr ++ sr1 ++ 1#1 ++ imm) = .addImm dr sr1 imm ∧
    ∃ t, exec (.addImm dr sr1 imm) s = .next t ∧
      ((t.reg dr).toNat : Int) = ((s.reg sr1).toNat + imm.toInt) % 65536 ∧
      ResultWritten dr (t.reg dr) s t ∧ SameMem s t ∧ SamePorts s t

/-- R133: AND, register form. Encoding: log entry 13; the ignored bits are the spec's own D16: log entry 16. -/
def Obligations.AndRegisterForm : Prop :=
  ∀ (dr sr1 sr2 : RegNum) (g : BitVec 2) (s : State),
    decode (0x5#4 ++ dr ++ sr1 ++ 0#1 ++ g ++ sr2) = .andReg dr sr1 sr2 ∧
    ∃ t, exec (.andReg dr sr1 sr2) s = .next t ∧
      (∀ k, k < 16 → ((t.reg dr).getLsbD k = true ↔
        (s.reg sr1).getLsbD k = true ∧ (s.reg sr2).getLsbD k = true)) ∧
      ResultWritten dr (t.reg dr) s t ∧ SameMem s t ∧ SamePorts s t

/-- R134: AND, immediate form; the immediate is sign-extended before the AND. Encoding: log entry 13. -/
def Obligations.AndImmediateForm : Prop :=
  ∀ (dr sr1 : RegNum) (imm : BitVec 5) (s : State),
    decode (0x5#4 ++ dr ++ sr1 ++ 1#1 ++ imm) = .andImm dr sr1 imm ∧
    ∃ t, exec (.andImm dr sr1 imm) s = .next t ∧
      (∀ k, k < 16 → ((t.reg dr).getLsbD k = true ↔
        (s.reg sr1).getLsbD k = true ∧ imm.getLsbD (min k 4) = true)) ∧
      ResultWritten dr (t.reg dr) s t ∧ SameMem s t ∧ SamePorts s t

/-- R135: NOT. Encoding: log entry 13; the ignored bits are the spec's own D16: log entry 16. -/
def Obligations.NotForm : Prop :=
  ∀ (dr sr : RegNum) (g : BitVec 6) (s : State),
    decode (0x9#4 ++ dr ++ sr ++ g) = .notReg dr sr ∧
    ∃ t, exec (.notReg dr sr) s = .next t ∧ (t.reg dr).toNat = 0xFFFF - (s.reg sr).toNat ∧
      ResultWritten dr (t.reg dr) s t ∧ SameMem s t ∧ SamePorts s t

/-! ### Data movement (`42_loads_stores.md`) -/

/-- R141: LD. Encoding: log entry 13. -/
def Obligations.LoadPcRelative : Prop :=
  ∀ (dr : RegNum) (off : BitVec 9) (s : State),
    decode (0x2#4 ++ dr ++ off) = .ld dr off ∧
    ∃ t, exec (.ld dr off) s = .next t ∧
      let r := memRead (s.pc + 1#16 + sext off) s
      ResultWritten dr r.1 s t ∧ SameMem r.2 t ∧ SamePorts r.2 t ∧ t.output = s.output

/-- R142: LDI, the pointer read and then the data read, each through `MemRead`. Encoding: log entry 13. -/
def Obligations.LoadIndirect : Prop :=
  ∀ (dr : RegNum) (off : BitVec 9) (s : State),
    decode (0xA#4 ++ dr ++ off) = .ldi dr off ∧
    ∃ t, exec (.ldi dr off) s = .next t ∧
      let pointer := memRead (s.pc + 1#16 + sext off) s
      let r := memRead pointer.1 pointer.2
      ResultWritten dr r.1 s t ∧ SameMem r.2 t ∧ SamePorts r.2 t ∧ t.output = s.output

/-- R143: LDR. Encoding: log entry 13. -/
def Obligations.LoadBaseOffset : Prop :=
  ∀ (dr base : RegNum) (off : BitVec 6) (s : State),
    decode (0x6#4 ++ dr ++ base ++ off) = .ldr dr base off ∧
    ∃ t, exec (.ldr dr base off) s = .next t ∧
      let r := memRead (s.reg base + sext off) s
      ResultWritten dr r.1 s t ∧ SameMem r.2 t ∧ SamePorts r.2 t ∧ t.output = s.output

/-- R144: LEA sets the flags from the address and does not touch memory. Encoding: log entry 13. -/
def Obligations.LoadEffectiveAddress : Prop :=
  ∀ (dr : RegNum) (off : BitVec 9) (s : State),
    decode (0xE#4 ++ dr ++ off) = .lea dr off ∧
    ∃ t, exec (.lea dr off) s = .next t ∧
      ((t.reg dr).toNat : Int) = (s.pc.toNat + 1 + off.toInt) % 65536 ∧
      ResultWritten dr (t.reg dr) s t ∧ SameMem s t ∧ SamePorts s t

/-- R145: ST. Encoding: log entry 13. -/
def Obligations.StorePcRelative : Prop :=
  ∀ (sr : RegNum) (off : BitVec 9) (s : State),
    decode (0x3#4 ++ sr ++ off) = .st sr off ∧
    ∃ t, exec (.st sr off) s = .next t ∧ WordStored (s.pc + 1#16 + sext off) (s.reg sr) s t

/-- R146: STI, the pointer read through `MemRead` and then the write. Encoding: log entry 13. -/
def Obligations.StoreIndirect : Prop :=
  ∀ (sr : RegNum) (off : BitVec 9) (s : State),
    decode (0xB#4 ++ sr ++ off) = .sti sr off ∧
    ∃ t, exec (.sti sr off) s = .next t ∧
      let pointer := memRead (s.pc + 1#16 + sext off) s
      WordStored pointer.1 (s.reg sr) pointer.2 t ∧ SameRegs s t ∧ t.flags = s.flags ∧ t.pc = s.pc + 1#16 ∧
        t.output = s.output ∧ SameControl s t

/-- R147: STR, with the instruction's own register and offset fields. Encoding: log entry 13. -/
def Obligations.StoreBaseOffset : Prop :=
  ∀ (sr base : RegNum) (off : BitVec 6) (s : State),
    decode (0x7#4 ++ sr ++ base ++ off) = .str sr base off ∧
    ∃ t, exec (.str sr base off) s = .next t ∧ WordStored (s.reg base + sext off) (s.reg sr) s t

/-! ### Control transfer (`43_control.md`) -/

/-- R160: BR. Encoding: log entry 13. -/
def Obligations.BranchOnFlags : Prop :=
  ∀ (n z p : Bool) (off : BitVec 9) (s : State),
    decode (0x0#4 ++ BitVec.ofBool n ++ BitVec.ofBool z ++ BitVec.ofBool p ++ off) = .br n z p off ∧
    ∃ t, exec (.br n z p off) s = .next t ∧
      OnlyPcChanged
        (if (n = true ∧ s.flags.n = true) ∨ (z = true ∧ s.flags.z = true) ∨ (p = true ∧ s.flags.p = true)
         then s.pc + 1#16 + sext off else s.pc + 1#16) s t

/-- R161: JMP. Encoding: log entry 13; the ignored bits are the spec's own D16: log entry 16. -/
def Obligations.JumpToRegister : Prop :=
  ∀ (base : RegNum) (g3 : BitVec 3) (g6 : BitVec 6) (s : State),
    decode (0xC#4 ++ g3 ++ base ++ g6) = .jmp base ∧
    ∃ t, exec (.jmp base) s = .next t ∧ OnlyPcChanged (s.reg base) s t

/-- R163: JSR saves the address after it in `x[7]` and adds the offset to it, with no further increment. Encoding: log
entry 13. -/
def Obligations.SubroutineCallPcRelative : Prop :=
  ∀ (off : BitVec 11) (s : State),
    decode (0x4#4 ++ 1#1 ++ off) = .jsr off ∧
    ∃ t, exec (.jsr off) s = .next t ∧ t.reg 7#3 = s.pc + 1#16 ∧
      (t.pc.toNat : Int) = (s.pc.toNat + 1 + off.toInt) % 65536 ∧
      SameRegsBut 7#3 s t ∧ t.flags = s.flags ∧ SameMem s t ∧ SamePorts s t ∧ SameControl s t

/-- R164: JSRR writes `x[7]` before it reads the base, so `JSRR R7` goes on at the next instruction. Encoding: log entry
13; the order is the spec's own D17: log entry 16. -/
def Obligations.SubroutineCallRegister : Prop :=
  ∀ (base : RegNum) (g2 : BitVec 2) (g6 : BitVec 6) (s : State),
    decode (0x4#4 ++ 0#1 ++ g2 ++ base ++ g6) = .jsrr base ∧
    ∃ t, exec (.jsrr base) s = .next t ∧ t.reg 7#3 = s.pc + 1#16 ∧
      t.pc = (if base = 7#3 then s.pc + 1#16 else s.reg base) ∧
      SameRegsBut 7#3 s t ∧ t.flags = s.flags ∧ SameMem s t ∧ SamePorts s t ∧ SameControl s t

/-- R165, R166: RTI and RES, with any operand bits, do nothing but go on at `pc + 1`. Encoding: log entry 13; the
no-operation reading is the spec's own D23: log entry 16. -/
def Obligations.PlaceholdersAreNoOperations : Prop :=
  (∀ g : BitVec 12, decode (0x8#4 ++ g) = .rti ∧ decode (0xD#4 ++ g) = .res) ∧
  ∀ s : State, (∃ t, exec .rti s = .next t ∧ OnlyPcChanged (s.pc + 1#16) s t) ∧
    ∃ t, exec .res s = .next t ∧ OnlyPcChanged (s.pc + 1#16) s t

/-! ### TRAP and its services (`44_trap.md`) -/

/-- R180: a TRAP word with an implemented vector, whatever its bits 11:8, decodes to that service; a plain TRAP term
with the vector runs it too, and completes as the service does. (A vector without a service: R190, below.) A plain
term with a service vector is the model's own, no word decodes to it: log entry 11. TRAP's opcode number: log entry
13; vectors: 14; bits 11:8 ignored is the spec's own D16: log entry 16. -/
def Obligations.TrapSelectsService : Prop :=
  (∀ g : BitVec 4, decode (0xF#4 ++ g ++ 0x20#8) = .getc ∧ decode (0xF#4 ++ g ++ 0x21#8) = .out ∧
    decode (0xF#4 ++ g ++ 0x22#8) = .puts ∧ decode (0xF#4 ++ g ++ 0x23#8) = .in_ ∧
    decode (0xF#4 ++ g ++ 0x24#8) = .putsp ∧ decode (0xF#4 ++ g ++ 0x25#8) = .halt) ∧
  ∀ (g : BitVec 4) (s : State), exec (.trap g 0x20#8) s = exec .getc s ∧ exec (.trap g 0x21#8) s = exec .out s ∧
    exec (.trap g 0x22#8) s = exec .puts s ∧ exec (.trap g 0x23#8) s = exec .in_ s ∧
    exec (.trap g 0x24#8) s = exec .putsp s ∧ exec (.trap g 0x25#8) s = exec .halt s ∧
    (∃ t, exec (.trap g 0x21#8) s = .next t ∧ CharactersWritten [(s.reg 0#3).extractLsb 7 0] s t) ∧
    ∃ t, exec (.trap g 0x25#8) s = .next t ∧ t.runState = .stopped ∧ t.pc = s.pc + 1#16 ∧ SameRegs s t ∧
      t.flags = s.flags ∧ SameMem s t ∧ SamePorts s t

/-- R190: a vector outside 0x20..0x25 latches (vector, address, whole word), stops the machine, and changes nothing
else. TRAP's opcode number: log entry 13; vectors: log entry 14; the state left is the spec's own D10: log entries
10, 16. -/
def Obligations.UnknownVectorLatchesFault : Prop :=
  ∀ (g : BitVec 4) (vec : BitVec 8) (s : State), (vec.toNat < 0x20 ∨ 0x25 < vec.toNat) →
    decode (0xF#4 ++ g ++ vec) = .trap g vec ∧
    ∃ t, exec (.trap g vec) s = .next t ∧ t.fault = some ⟨vec, s.pc, 0xF#4 ++ g ++ vec⟩ ∧
      t.runState = .stopped ∧ t.pc = s.pc ∧ SameRegs s t ∧ t.flags = s.flags ∧ SameMem s t ∧ SamePorts s t ∧
      t.waiting = s.waiting ∧ SameSetup s t

/-- R184: GETC with a character to come: it goes to `x[0]`, zero-extended; no flag, no memory, no output. The input list
is the model's: log entry 6; side effects are the spec's own D21: log entry 16. -/
def Obligations.GetcReadsCharacter : Prop :=
  ∀ (s : State) (c : Character) (rest : InputSource), NextCharIs s c rest →
    ∃ t, exec .getc s = .next t ∧ CharacterRead c rest s t ∧ t.output = s.output

/-- R187: IN writes the prompt, reads a character, echoes that character, and stores it in `x[0]`; for every prompt. The
input list and the prompt field are the model's: log entries 6, 12; D21: log entry 16. -/
def Obligations.InPromptsReadsEchoes : Prop :=
  ∀ (s : State) (c : Character) (rest : InputSource), NextCharIs s c rest →
    ∃ t, exec .in_ s = .next t ∧ CharacterRead c rest s t ∧ t.output = s.output ++ s.inPrompt ++ [c]

/-- R124, R183: GETC or IN with no character to come holds all state (IN after its prompt), and so does every further
step; the pc stays at the TRAP and the counter does not move. The hold as a state is the model's: log entry 8. The
list of answers is log entry 6; that input may never come is the spec's own D22: log entry 16. -/
def Obligations.BlockedReadHolds : Prop :=
  (∀ s : State, NoCharComes s →
    (∃ t, exec .getc s = .next t ∧ HeldFor .getc s t ∧ t.output = s.output) ∧
    ∃ t, exec .in_ s = .next t ∧ HeldFor .in_ s t ∧ t.output = s.output ++ s.inPrompt) ∧
  ∀ (s : State) (k : BlockedRead), s.waiting = some (.read k) → s.fault = none → NoCharComes s → step s = .next s

/-- R124: a held step completes when the input collaborator delivers a character: the service's own effect (the prompt
is not written again), and the counter. The hold as a state is the model's: log entry 8. The list of answers is log
entry 6; the place of the count is the spec's own D9, the side effects D21: log entry 16. -/
def Obligations.DeliveryCompletesBlockedRead : Prop :=
  ∀ (s : State) (k : BlockedRead) (c : Character) (rest : InputSource),
    s.waiting = some (.read k) → s.fault = none → NextCharIs s c rest →
    ∃ u, CharacterRead c rest s u ∧ u.output = s.output ++ (match k with | .getc => [] | .in_ => [c]) ∧
      step s = .next (u.setWord 0xFFFF#16 (s.word 0xFFFF#16 + 1#16))

/-- R185: OUT writes the low 8 bits of `x[0]`. -/
def Obligations.OutWritesLowByte : Prop :=
  ∀ s : State, ∃ t, exec .out s = .next t ∧ CharactersWritten [(s.reg 0#3).extractLsb 7 0] s t

/-- R186: PUTS over non-zero words ended by a zero word writes the low byte of each, and changes nothing else. `x[0]`
unchanged is the spec's own D19: log entry 16. KBSR_ADDR, which the string must not cross, is log entry 15. -/
def Obligations.PutsWritesString : Prop :=
  ∀ (s : State) (ws : List Word), StoredAt s (s.reg 0#3) (ws ++ [0#16]) → (∀ w ∈ ws, w ≠ 0#16) →
    ∃ t, exec .puts s = .next t ∧ CharactersWritten (ws.map fun w => w.extractLsb 7 0) s t

/-- What PUTS does from every state is what the loop of R186 does. When the input that comes is finite it completes;
whatever the input, one call of `step` runs the loop to its break or stands in it after 65536 words or more, and the
next call goes on from there; and where no word that is read is zero and a non-zero character is ready at every
query, the Run around it never returns (R216). The input and the suspended walk are the model's: log entries 6, 9.
The latch's address is log entry 15, `x[0]` unchanged the spec's own D19: log entry 16. Run looked at for a number
of steps: log entry 21. -/
def Obligations.PutsRunsItsLoop : Prop :=
  (∀ s : State, s.input.tail = .silent →
    ∃ t, PutsLoopEnds (s.reg 0#3) s t ∧ exec .puts s = .next { t with pc := s.pc + 1#16 } ∧
      SameRegs s t ∧ t.flags = s.flags ∧ SameControl s t ∧ SameMemBut 0xFE02#16 s t) ∧
  (∀ s : State, ∃ t, exec .puts s = .next t ∧ PutsRuns (s.reg 0#3) s t ∧
    SameRegs s t ∧ t.flags = s.flags ∧ SameMemBut 0xFE02#16 s t) ∧
  (∀ (s : State) (a : Word), s.fault = none → s.waiting = some (.puts a) →
    ∃ t, PutsRuns a { s with waiting := none } t ∧ step s = .next (finishStep t)) ∧
  ∀ s : State, Ready s → decode (fetch (beginStep s)).1 = .puts → (fetch (beginStep s)).2.input.NeverEnds →
    (∀ a, a ≠ 0xFE00#16 → (fetch (beginStep s)).2.word a ≠ 0#16) → ∀ k, ∃ t, hostRun k s = .going t

/-- R188: PUTSP over words of two non-zero bytes, ended by a word with a zero byte, writes low byte then high byte of
each and then the last word's low byte if that is not zero, and changes nothing else. The termination is the spec's
own D18, `x[0]` unchanged D19: log entry 16. KBSR_ADDR, which the string must not cross, is log entry 15. -/
def Obligations.PutspWritesString : Prop :=
  ∀ (s : State) (ws : List Word) (last : Word), StoredAt s (s.reg 0#3) (ws ++ [last]) →
    (∀ w ∈ ws, w.extractLsb 7 0 ≠ 0#8 ∧ w.extractLsb 15 8 ≠ 0#8) →
    (last.extractLsb 7 0 = 0#8 ∨ last.extractLsb 15 8 = 0#8) →
    ∃ t, exec .putsp s = .next t ∧
      CharactersWritten
        ((ws.flatMap fun w => [w.extractLsb 7 0, w.extractLsb 15 8]) ++
          (if last.extractLsb 7 0 = 0#8 then [] else [last.extractLsb 7 0])) s t

/-- PUTSP completes from every state, with every input, and what it does is what the loop of R188 does: the low byte of
a status read is 0. The input is the model's: log entry 6; the walk in one step: log entry 9. The device addresses are
log entry 15, the termination and `x[0]` unchanged the spec's own D18, D19: log entry 16. -/
def Obligations.PutspRunsItsLoop : Prop :=
  ∀ s : State, ∃ t, PutspLoopEnds (s.reg 0#3) s t ∧ exec .putsp s = .next { t with pc := s.pc + 1#16 } ∧
    SameRegs s t ∧ t.flags = s.flags ∧ SameControl s t ∧ SameMemBut 0xFE02#16 s t

/-- R189: HALT sets RunState to Stopped and goes on at `pc + 1`; nothing else changes. The commit is the spec's own D25:
log entry 16. -/
def Obligations.HaltStops : Prop :=
  ∀ s : State, ∃ t, exec .halt s = .next t ∧ t.runState = .stopped ∧ t.pc = s.pc + 1#16 ∧ SameRegs s t ∧
    t.flags = s.flags ∧ SameMem s t ∧ SamePorts s t ∧ t.fault = s.fault ∧ t.waiting = s.waiting ∧ SameSetup s t

/-! ### The step protocol (`40_engine_step.md`) -/

/-- R111: a Step of a ready machine sets Running, fetches through `MemRead` at the pc, runs the instruction the word
decodes to, and then counts, unless the instruction took the fatal path or is held in a read. The place of the count
and line 0 are the spec's own D9, D11: log entries 16, 17. The fatal step as a state: log entry 10; a step that has
not completed: 8, 9. -/
def Obligations.StepRunsDecodedInstruction : Prop :=
  ∀ (s : State) (i : Instr), Ready s →
    decode (memRead s.pc { s with runState := .running }).1 = i →
    step s =
      match exec i (memRead s.pc { s with runState := .running }).2 with
      | .next t =>
        if t.fault.isSome || t.waiting.isSome then .next t
        else .next (t.setWord 0xFFFF#16 (t.word 0xFFFF#16 + 1#16))
      | .fault r => .fault r
      | .refused r => .refused r

/-- R117: a step that runs to its end adds 1 to the word at 0xFFFF, mod 2^16, after everything its instruction did, and
changes nothing else; a step on the fatal path, or held, does not. The spec's own D9: log entry 16. The fatal step
as a state: log entry 10; a step that has not completed: 8, 9. -/
def Obligations.CounterCountsCompletedSteps : Prop :=
  ∀ s u : State, Ready s → exec (decode (fetch (beginStep s)).1) (fetch (beginStep s)).2 = .next u →
    (Completed u → ∃ t, step s = .next t ∧
      (t.word 0xFFFF#16).toNat = ((u.word 0xFFFF#16).toNat + 1) % 65536 ∧ SameMemBut 0xFFFF#16 u t ∧
      t.pc = u.pc ∧ SameRegs u t ∧ t.flags = u.flags ∧ SamePorts u t ∧ SameControl u t) ∧
    (¬ Completed u → step s = .next u)

/-- R118: the step of a TRAP without a service latches the fault at the pc, stops, keeps pc, registers, flags and memory
as they were after the fetch, does not count, and its status is Fatal. The spec's own D10: log entries 10, 16.
TRAP's opcode number: log entry 13; vectors: 14. -/
def Obligations.FatalStepState : Prop :=
  ∀ (s : State) (g : BitVec 4) (vec : BitVec 8), Ready s → (vec.toNat < 0x20 ∨ 0x25 < vec.toNat) →
    (fetch (beginStep s)).1 = 0xF#4 ++ g ++ vec →
    ∃ t, step s = .next t ∧ t.fault = some ⟨vec, s.pc, 0xF#4 ++ g ++ vec⟩ ∧ t.runState = .stopped ∧ t.pc = s.pc ∧
      SameRegs s t ∧ t.flags = s.flags ∧ SameMem (fetch (beginStep s)).2 t ∧
      SamePorts (fetch (beginStep s)).2 t ∧ statusOf t = some (.fatal ⟨vec, s.pc, 0xF#4 ++ g ++ vec⟩)

/-- R119: while a fault is latched, Step changes no state and returns the same Fatal, and so does Run of a loaded
machine; Reset clears the latch. The spec's own D11: log entries 10, 16. Run looked at for a number of steps: log
entry 21. -/
def Obligations.LatchedFaultIsSticky : Prop :=
  ∀ (s : State) (f : UnimplementedTrap), s.fault = some f → s.waiting = none →
    step s = .next s ∧ statusOf s = some (.fatal f) ∧
    (∀ k, s.loaded = true → hostRun (k + 1) s = .done (.fatal f) s) ∧
    ∃ t, hostReset s = .next t ∧ t.fault = none

/-- R31, R112, R120: a completed or fatal step leaves RunState Stopped exactly when its instruction was HALT or took the
fatal path, and the status of a completed step is Halted for HALT and Ok for every other instruction. Step from
Stopped is the spec's own D27: log entry 16. The fatal step as a state: log entry 10; a step that has not completed:
8, 9. -/
def Obligations.StepStatus : Prop :=
  ∀ s t : State, Ready s → step s = .next t → t.waiting = none →
    (t.runState = .stopped ↔ decode (fetch (beginStep s)).1 = .halt ∨ t.fault.isSome = true) ∧
    (t.fault = none →
      statusOf t = some (if decode (fetch (beginStep s)).1 = .halt then .halted else .ok))

/-- R122, and the model's own choice for a Step before LoadImage (log entry 5; R40): on a machine with no image, Run
returns MissingProgram and changes nothing, and Step has no meaning; a LoadImage then lets Run step. Run looked at
for a number of steps: log entry 21; the refusal inside a step is 18. -/
def Obligations.UnloadedMachine : Prop :=
  ∀ s : State, s.loaded = false → s.waiting = none →
    (∀ k, hostRun k s = .done .missingProgram s) ∧
    (s.fault = none → step s = .refused .stepBeforeLoadImage) ∧
    ∀ (image : Word → Word) (k : Nat), ∃ t, loadImage image s = .next t ∧ hostRun k t = runLoop k t

/-- LoadImage (R110) stores the whole array, sets `loaded`, touches nothing else, and leaves memory canonical. The
operation is the spec's own framing, D24: log entry 16; `waiting`: log entry 18. The canonical form: log entries 1,
2. -/
def Obligations.LoadImageStoresArray : Prop :=
  ∀ (image : Word → Word) (s : State), s.waiting = none →
    ∃ t, loadImage image s = .next t ∧ (∀ a, t.word a = image a) ∧ t.loaded = true ∧ t.mem.wf ∧ SameRegs s t ∧
      t.pc = s.pc ∧ t.flags = s.flags ∧ t.runState = s.runState ∧ t.fault = s.fault ∧ t.waiting = s.waiting ∧
      SamePorts s t ∧ t.inPrompt = s.inPrompt

/-! ### Reset (`70_reset_and_hazards.md`) -/

/-- R240: Reset sets the pc to 0x3000, clears the flags, stops the machine and clears the latch, and leaves registers,
memory, `loaded` and the ports alone. RunState and the latch are the spec's own D12: log entry 16; `waiting`: log
entry 18. -/
def Obligations.ResetOperation : Prop :=
  ∀ s : State, s.waiting = none →
    ∃ t, hostReset s = .next t ∧ t.pc = 0x3000#16 ∧ t.flags = ⟨false, false, false⟩ ∧ t.runState = .stopped ∧
      t.fault = none ∧ SameRegs s t ∧ SameMem s t ∧ t.loaded = s.loaded ∧ SamePorts s t ∧
      t.waiting = none ∧ t.inPrompt = s.inPrompt

/-- R39 to R41: the state after reset is what Construct, with any initial pc and flags, and then Reset leave: registers 0
(the spec's decision D13, log entry 3), pc 0x3000, flags clear, Stopped, no fault, no image. The ports and the prompt are
the model's choice (log entries 6, 7, 12) and nothing is said of them here. -/
def Obligations.StateAfterReset : Prop :=
  (∀ (initPc : Word) (initFlags : Flags), hostReset (construct initPc initFlags) = .next State.reset) ∧
  (∀ r, State.reset.reg r = 0#16) ∧ State.reset.pc = 0x3000#16 ∧ State.reset.flags = ⟨false, false, false⟩ ∧
  State.reset.runState = .stopped ∧ State.reset.fault = none ∧ State.reset.loaded = false

/-! ### Rules of the whole machine -/

/-- R29: after any instruction but the seven setting operations the flags are as before; after one of those seven they are
the sign of the word it left in its destination register. -/
def Obligations.FlagWriters : Prop :=
  ∀ (i : Instr) (s t : State), exec i s = .next t →
    (i.setsFlags = false → t.flags = s.flags) ∧
    (i.setsFlags = true → ∃ dr, i.destReg = some dr ∧ SignFlags t.flags (t.reg dr))

/-- R23: no instruction changes a register but the one the table names for it. A plain trap term with a service vector
counts as its service: log entry 11; vectors: 14. -/
def Obligations.RegisterWriters : Prop :=
  ∀ (i : Instr) (s t : State), exec i s = .next t → ∀ r, i.destReg ≠ some r → t.reg r = s.reg r

/-- An instruction changes no word of memory but the one it stores to and the input-data latch at 0xFE02; and the latch,
unless it is stored to, keeps its word when no answer of the input collaborator, a character or a "not ready", has been
used up (R54, R55, R69). The latch's address is the spec's own D4: log entry 15; the latching its D5: log entry 16; the
list of answers is the model's: log entry 6. -/
def Obligations.MemoryWriters : Prop :=
  ∀ (i : Instr) (s t : State), exec i s = .next t →
    (∀ a, a ≠ 0xFE02#16 → i.storesTo s ≠ some a → t.word a = s.word a) ∧
    (t.input = s.input → i.storesTo s ≠ some 0xFE02#16 → t.word 0xFE02#16 = s.word 0xFE02#16)

/-- R25: an instruction other than BR, JMP, JSR, JSRR that runs to its end goes on at `pc + 1`; one that takes the fatal
path or has not completed leaves the pc. A service that has not completed as a state is the model's: log entries 8,
9. The fatal step as a state: log entry 10. -/
def Obligations.PcOverride : Prop :=
  ∀ (i : Instr) (s t : State), Completed s → exec i s = .next t → i.overridesPc = false →
    (Completed t → t.pc = s.pc + 1#16) ∧ (¬ Completed t → t.pc = s.pc)

/-- R211: UnimplementedTrap is the only condition an instruction raises, and only a TRAP whose vector has no service
raises it. The fault as state: log entry 10. Vectors: log entry 14. -/
def Obligations.OnlyTrapRaises : Prop :=
  ∀ (i : Instr) (s t : State), s.fault = none → exec i s = .next t →
    (t.fault.isSome = true ↔ ∃ g vec, i = .trap g vec ∧ (vec.toNat < 0x20 ∨ 0x25 < vec.toNat))

/-- R70: a step only appends to what the output collaborator has received, uses up the input collaborator's answers from
the front, and never changes the prompt or unloads the image. The ports as lists are the model's: log entries 6, 7;
the prompt field: 12. -/
def Obligations.PortsMoveForward : Prop :=
  ∀ s t : State, step s = .next t →
    (∃ sent, t.output = s.output ++ sent) ∧ s.input.UsedTo t.input ∧ SameSetup s t

/-- R67: the word an `ST` puts at the address after itself is the instruction the next Step fetches. The number of
KBSR_ADDR is the spec's own D4: log entry 15. -/
def Obligations.NextFetchSeesStore : Prop :=
  ∀ (s t : State) (sr : RegNum), Ready s → decode (fetch (beginStep s)).1 = .st sr 0#9 →
    s.pc + 1#16 ≠ 0xFE00#16 → s.pc + 1#16 ≠ 0xFFFF#16 → step s = .next t →
    (fetch (beginStep t)).1 = s.reg sr ∧ t.pc = s.pc + 1#16

/-- R59: a load from 0xFFFF returns the counter as the step began; a store of `v` there leaves `v + 1 mod 2^16` when the
step ends. The spec's own D9: log entry 16. -/
def Obligations.CounterLoadAndStore : Prop :=
  ∀ s : State, Ready s →
    (∀ (dr base : RegNum) (off : BitVec 6), decode (fetch (beginStep s)).1 = .ldr dr base off →
      s.reg base + sext off = 0xFFFF#16 → ∃ t, step s = .next t ∧ t.reg dr = s.word 0xFFFF#16) ∧
    (∀ (dr : RegNum) (off : BitVec 9), decode (fetch (beginStep s)).1 = .ld dr off →
      s.pc + 1#16 + sext off = 0xFFFF#16 → ∃ t, step s = .next t ∧ t.reg dr = s.word 0xFFFF#16) ∧
    (∀ (sr base : RegNum) (off : BitVec 6), decode (fetch (beginStep s)).1 = .str sr base off →
      s.reg base + sext off = 0xFFFF#16 → ∃ t, step s = .next t ∧ t.word 0xFFFF#16 = s.reg sr + 1#16) ∧
    ∀ (sr : RegNum) (off : BitVec 9), decode (fetch (beginStep s)).1 = .st sr off →
      s.pc + 1#16 + sext off = 0xFFFF#16 → ∃ t, step s = .next t ∧ t.word 0xFFFF#16 = s.reg sr + 1#16

/-- Every Step of a loaded machine answers a next state: no instruction word, address, register value or input leaves a
step without one (R97, R214). The fatal step of a TRAP without a service, which does stop the machine (R118, R190),
and a step while its fault is latched are next states too: log entry 10; and so are a read without input and a
string that goes on, the model's choice: log entries 6, 8, 9. -/
def Obligations.LoadedStepAlwaysAnswers : Prop :=
  ∀ s : State, s.loaded = true → ∃ t, step s = .next t

/-- Every Step keeps the invariant: canonical memory, one of the four reachable flag states (R27), a fault latch that
records a TRAP without a service at the pc of a stopped machine (R32, R118), a service that has not completed only
while running. The canonical form is the model's: log entries 1, 2; the suspension: 8, 9. The fault as state: log
entry 10; TRAP's opcode number and the vectors in the record: 13, 14. -/
def Obligations.StepKeepsInvariant : Prop :=
  ∀ s t : State, s.Inv → step s = .next t → t.Inv

/-- The state after reset meets the invariant. The state after reset is log entries 2, 4, 6, 8. -/
def Obligations.ResetMeetsInvariant : Prop := State.reset.Inv

/-- LoadImage, Reset, a delivery by the input collaborator and a change of what comes after it keep the invariant, and
Construct meets it whenever the flags it is given are a reachable flag state. INIT_PC and INIT_FLAGS as arguments:
log entry 19. The input: log entry 6. -/
def Obligations.HostOperationsKeepInvariant : Prop :=
  (∀ (image : Word → Word) (s t : State), s.Inv → loadImage image s = .next t → t.Inv) ∧
  (∀ s t : State, s.Inv → hostReset s = .next t → t.Inv) ∧
  (∀ (answers : List InputEvent) (s : State), s.Inv → (inputArrives answers s).Inv) ∧
  (∀ (tail : InputTail) (s : State), s.Inv → (inputGoesOn tail s).Inv) ∧
  ∀ (initPc : Word) (initFlags : Flags), initFlags.Legal → (construct initPc initFlags).Inv
end

