-- ==== Sys2Proof/Laws/Input.lean ====
section
/-! SUPPORT. The input collaborator's answers: what comes next, and that they are used up in one direction. -/

namespace Sys2Proof.Machine

/-- `InputSource.next` has nothing to give exactly when the list is empty and nothing comes after it. -/
theorem next_eq_none {i : InputSource} : i.next = none ↔ i.listed = [] ∧ i.tail = .silent := by
  obtain ⟨l, t⟩ := i
  cases l <;> cases t <;> simp [InputSource.next, InputTail.next]

/-- How far an input has been used, up to a constant: every answer adds 1. -/
def InputSource.position (i : InputSource) : Int :=
  (match i.tail with
    | .silent => 0
    | .repeating _ _ used => (used : Int)
    | .free used => (used : Int)) - i.listed.length

theorem position_next {i rest : InputSource} {e : InputEvent} (h : i.next = some (e, rest)) :
    rest.position = i.position + 1 := by
  obtain ⟨l, t⟩ := i
  cases l with
  | cons _ l =>
    simp only [InputSource.next, Option.some.injEq, Prod.mk.injEq] at h
    obtain ⟨-, rfl⟩ := h
    simp only [InputSource.position, List.length_cons]
    omega
  | nil =>
    cases t <;>
      simp only [InputSource.next, InputTail.next, Option.map_some, Option.map_none, Option.some.injEq, Prod.mk.injEq,
        reduceCtorEq] at h <;>
      obtain ⟨-, rfl⟩ := h <;> simp [InputSource.position]

namespace InputSource.UsedTo

theorem refl (i : InputSource) : i.UsedTo i := ⟨0, rfl⟩

theorem trans {i j m : InputSource} (hij : i.UsedTo j) (hjm : j.UsedTo m) : i.UsedTo m := by
  obtain ⟨k, rfl⟩ := hij
  induction k generalizing i with
  | zero => exact hjm
  | succ k ih =>
    cases h : i.next with
    | none => simpa [after, h] using hjm
    | some r =>
      simp only [after, h] at hjm
      obtain ⟨k', hk'⟩ := ih hjm
      exact ⟨k' + 1, by simpa [after, h] using hk'⟩

theorem of_next {i rest : InputSource} {e : InputEvent} (h : i.next = some (e, rest)) : i.UsedTo rest :=
  ⟨1, by simp [after, h]⟩

/-- The position never falls, and stays only where nothing has been used. -/
theorem position_le {i j : InputSource} (h : i.UsedTo j) :
    i.position ≤ j.position ∧ (j.position = i.position → j = i) := by
  obtain ⟨k, rfl⟩ := h
  induction k generalizing i with
  | zero => exact ⟨Int.le_refl _, fun _ => rfl⟩
  | succ k ih =>
    cases h : i.next with
    | none => simp [after, h]
    | some r =>
      have hr : r.2.position = i.position + 1 := position_next h
      have := (ih (i := r.2)).1
      simp only [after, h]
      exact ⟨by omega, fun e => absurd e (by omega)⟩

/-- If an input is the same at both ends of two uses, it was the same between them. -/
theorem eq_of_back {i j m : InputSource} (hij : i.UsedTo j) (hjm : j.UsedTo m) (h : m = i) : j = i := by
  have h₁ := hij.position_le
  have h₂ := hjm.position_le
  subst h
  exact h₁.2 (by omega)

end InputSource.UsedTo

/-- What the first character of a list is, and what it is none of. -/
theorem firstChar_eq_some {l rest : List InputEvent} {c : Character} :
    firstChar l = some (c, rest) ↔ ∃ k, l = List.replicate k .notReady ++ .char c :: rest := by
  induction l with
  | nil => simp [firstChar]
  | cons e l ih =>
    cases e with
    | notReady =>
      rw [firstChar, ih]
      constructor
      · rintro ⟨k, rfl⟩; exact ⟨k + 1, by simp [List.replicate_succ]⟩
      · rintro ⟨_ | k, h⟩
        · simp at h
        · exact ⟨k, by simpa [List.replicate_succ] using h⟩
    | char d =>
      simp only [firstChar, Option.some.injEq, Prod.mk.injEq]
      constructor
      · rintro ⟨rfl, rfl⟩; exact ⟨0, rfl⟩
      · rintro ⟨_ | k, h⟩
        · simpa using h
        · simp [List.replicate_succ] at h

theorem firstChar_eq_none {l : List InputEvent} : firstChar l = none ↔ ∃ k, l = List.replicate k .notReady := by
  induction l with
  | nil => exact ⟨fun _ => ⟨0, rfl⟩, fun _ => rfl⟩
  | cons e l ih =>
    cases e with
    | notReady =>
      rw [firstChar, ih]
      constructor
      · rintro ⟨k, rfl⟩; exact ⟨k + 1, rfl⟩
      · rintro ⟨_ | k, h⟩
        · simp at h
        · exact ⟨k, by simpa [List.replicate_succ] using h⟩
    | char d =>
      simp only [firstChar, reduceCtorEq, false_iff, not_exists]
      rintro (_ | k) h <;> simp [List.replicate_succ] at h

/-- `InRead()` returns the first character, listed or after the list, and the answers after it. -/
theorem nextChar_eq_some {s : State} {rest : InputSource} {c : Character} :
    nextChar s.input = some (c, rest) ↔ NextCharIs s c rest := by
  unfold nextChar NextCharIs
  split
  · next d l h =>
    have hl := firstChar_eq_some.mp h
    simp only [Option.some.injEq, Prod.mk.injEq]
    constructor
    · rintro ⟨rfl, rfl⟩
      obtain ⟨k, hk⟩ := hl
      exact ⟨k, .inl ⟨l, hk, rfl⟩⟩
    · rintro ⟨k, ⟨l', hk, rfl⟩ | ⟨hk, -⟩⟩
      · have := firstChar_eq_some.mpr ⟨k, hk⟩
        rw [h] at this
        cases this; exact ⟨rfl, rfl⟩
      · rw [firstChar_eq_none.mpr ⟨k, hk⟩] at h; cases h
  · next h =>
    obtain ⟨k, hk⟩ := firstChar_eq_none.mp h
    constructor
    · intro ht
      obtain ⟨r, hr, he⟩ := Option.map_eq_some_iff.mp ht
      cases he
      exact ⟨k, .inr ⟨hk, r.2, hr, rfl⟩⟩
    · rintro ⟨k', ⟨l', hk', rfl⟩ | ⟨-, t, ht, rfl⟩⟩
      · rw [firstChar_eq_some.mpr ⟨k', hk'⟩] at h; cases h
      · simp [ht]

/-- `InRead()` does not return while no character ever comes. -/
theorem nextChar_eq_none {s : State} : nextChar s.input = none ↔ NoCharComes s := by
  have hl : firstChar s.input.listed = none ↔ ∀ e ∈ s.input.listed, e = .notReady := by
    rw [firstChar_eq_none, ← List.eq_replicate_length]
    exact ⟨fun ⟨k, hk⟩ => by rw [hk]; simp, fun h => ⟨_, h⟩⟩
  have ht : s.input.tail.next = none ↔ s.input.tail = .silent := by
    cases s.input.tail <;> simp [InputTail.next]
  unfold nextChar NoCharComes
  split
  · next c l h => simp [← hl, h]
  · next h => simp [← hl, h, ht]

theorem usedTo_of_next_of_listed {e : InputEvent} {l : List InputEvent} {t : InputTail} :
    (⟨e :: l, t⟩ : InputSource).UsedTo ⟨l, t⟩ := .of_next rfl

/-- A character that has been read was used up from the front. -/
theorem NextCharIs.usedTo {s : State} {c : Character} {rest : InputSource} (h : NextCharIs s c rest) :
    s.input.UsedTo rest := by
  have skip : ∀ (k : Nat) (l : List InputEvent) (t : InputTail),
      (⟨List.replicate k .notReady ++ l, t⟩ : InputSource).UsedTo ⟨l, t⟩ := by
    intro k l t
    induction k with
    | zero => exact .refl _
    | succ k ih => exact usedTo_of_next_of_listed.trans ih
  obtain ⟨i⟩ : Nonempty (s.input = ⟨s.input.listed, s.input.tail⟩) := ⟨rfl⟩
  rw [i]
  obtain ⟨k, ⟨l, hl, rfl⟩ | ⟨hl, t, ht, rfl⟩⟩ := h
  · rw [hl]; exact (skip k _ _).trans usedTo_of_next_of_listed
  · rw [hl, ← List.append_nil (List.replicate k _)]
    exact (skip k [] _).trans (.of_next (e := .char c) (by simp [InputSource.next, ht]))

end Sys2Proof.Machine
end

