-- ==== Sys2Proof/Laws/Memory.lean ====
section
/-! SUPPORT. Memory as a list of words: read after write, and the canonical form every operation keeps. -/

namespace Sys2Proof.Machine

/-! ### Reading -/

theorem Memory.read_erase (m : Memory) (a b : Nat) :
    (m.erase a).read b = if b = a then Config.unlistedWord else m.read b := by
  induction m with
  | nil => simp [Memory.erase, Memory.read]
  | cons c m ih =>
    simp only [Memory.erase, List.filter_cons] at ih ⊢
    by_cases hc : c.1 = a
    · by_cases hb : b = a
      · simpa [hc, hb] using by simpa [hb] using ih
      · have : ¬ a = b := fun e => hb e.symm
        simpa [hc, hb, Memory.read, this] using by simpa [hb] using ih
    · by_cases hb : b = a
      · have : ¬ c.1 = b := by rwa [hb]
        simpa [hc, hb, Memory.read] using by simpa [hb] using ih
      · simp only [Memory.read, bne_iff_ne, ne_eq, hc, not_false_eq_true, ↓reduceIte, ih, hb]

theorem Memory.read_insert (m : Memory) (a b : Nat) (v : Word) (fresh : ∀ c ∈ m, c.1 ≠ a) :
    (m.insert a v).read b = if b = a then v else m.read b := by
  induction m with
  | nil => simp [Memory.insert, Memory.read, eq_comm]
  | cons c m ih =>
    have hc : c.1 ≠ a := fresh c (by simp)
    have ih := ih fun d hd => fresh d (by simp [hd])
    have hba : (a = b) = (b = a) := propext eq_comm
    by_cases hlt : a < c.1
    · simp [Memory.insert, Memory.read, hlt, hba]
    · simp only [Memory.insert, hlt, if_false, Memory.read, ih]
      by_cases hb : b = a
      · simp [hb, hc]
      · simp [hb]

theorem Memory.erase_fresh (m : Memory) (a : Nat) : ∀ c ∈ m.erase a, c.1 ≠ a := by
  intro c hc
  simpa using (List.mem_filter.mp hc).2

/-- Read after write, for every list: the word written at its address, every other word as before. -/
theorem Memory.read_write (m : Memory) (a b : Nat) (v : Word) :
    (m.write a v).read b = if b = a then v else m.read b := by
  unfold Memory.write
  split
  · next h => rw [Memory.read_erase, h]
  · rw [Memory.read_insert _ _ _ _ (m.erase_fresh a), Memory.read_erase]
    split <;> rfl

/-! ### The canonical form -/

theorem Memory.wf_nil : Memory.wf [] := by simp [Memory.wf]

theorem Memory.wf_erase {m : Memory} (h : m.wf) (a : Nat) : (m.erase a).wf :=
  ⟨h.1.filter _, fun c hc => h.2 c (List.mem_filter.mp hc).1⟩

theorem Memory.mem_insert {m : Memory} {a : Nat} {v : Word} {c : Cell} (h : c ∈ m.insert a v) :
    c = (a, v) ∨ c ∈ m := by
  induction m with
  | nil => simpa [Memory.insert] using h
  | cons d m ih =>
    simp only [Memory.insert] at h
    split at h
    · simpa using h
    · rcases List.mem_cons.mp h with rfl | h
      · simp
      · rcases ih h with h | h <;> simp [h]

theorem Memory.wf_insert {m : Memory} (h : m.wf) {a : Nat} {v : Word} (ha : a < 65536)
    (hv : v ≠ Config.unlistedWord) (fresh : ∀ c ∈ m, c.1 ≠ a) : (m.insert a v).wf := by
  refine ⟨?_, fun c hc => ?_⟩
  · have hp := h.1
    clear h
    induction m with
    | nil => simp [Memory.insert]
    | cons d m ih =>
      obtain ⟨hd, hm⟩ := List.pairwise_cons.mp hp
      simp only [Memory.insert]
      split
      · next hlt =>
        refine List.pairwise_cons.mpr ⟨fun e he => ?_, hp⟩
        rcases List.mem_cons.mp he with rfl | he
        · exact hlt
        · exact Nat.lt_trans hlt (hd e he)
      · next hge =>
        refine List.pairwise_cons.mpr ⟨fun e he => ?_, ih (fun c hc => fresh c (by simp [hc])) hm⟩
        rcases Memory.mem_insert he with rfl | he
        · exact Nat.lt_of_le_of_ne (Nat.not_lt.mp hge) (fresh d (by simp))
        · exact hd e he
  · rcases Memory.mem_insert hc with rfl | hc
    · exact ⟨ha, hv⟩
    · exact h.2 c hc

theorem Memory.wf_write {m : Memory} (h : m.wf) {a : Nat} (ha : a < 65536) (v : Word) : (m.write a v).wf := by
  unfold Memory.write
  split
  · exact Memory.wf_erase h a
  · next hv => exact Memory.wf_insert (Memory.wf_erase h a) ha hv (m.erase_fresh a)

theorem Memory.wf_ofImage (image : Word → Word) : (Memory.ofImage image).wf := by
  unfold Memory.ofImage
  refine ⟨List.Pairwise.filter _ (List.pairwise_map.mpr ?_), fun c hc => ?_⟩
  · exact List.pairwise_lt_range.imp id
  · obtain ⟨hc, hv⟩ := List.mem_filter.mp hc
    obtain ⟨a, ha, rfl⟩ := List.mem_map.mp hc
    exact ⟨List.mem_range.mp ha, by simpa using hv⟩

theorem Memory.read_of_fresh {m : Memory} {a : Nat} (fresh : ∀ c ∈ m, c.1 ≠ a) : m.read a = Config.unlistedWord := by
  induction m with
  | nil => rfl
  | cons c m ih =>
    simp only [Memory.read, fresh c (by simp), if_false]
    exact ih fun d hd => fresh d (by simp [hd])

theorem Memory.read_tabulated (f : Nat → Word) {l : List Nat} (hl : l.Nodup) {b : Nat} (hb : b ∈ l) :
    Memory.read ((l.map fun a => (a, f a)).filter fun c => c.2 != Config.unlistedWord) b = f b := by
  induction l with
  | nil => simp at hb
  | cons a l ih =>
    obtain ⟨ha, hl⟩ := List.nodup_cons.mp hl
    by_cases h : b = a
    · subst h
      by_cases hv : f b = Config.unlistedWord
      · simp only [List.map_cons, hv, bne_self_eq_false, Bool.false_eq_true, not_false_eq_true, List.filter_cons_of_neg]
        refine Memory.read_of_fresh fun c hc => ?_
        obtain ⟨x, hx, rfl⟩ := List.mem_map.mp (List.mem_filter.mp hc).1
        rintro rfl
        exact ha hx
      · simp [hv, Memory.read]
    · have hb : b ∈ l := by simpa [h] using hb
      have hne : ¬ a = b := fun e => h e.symm
      by_cases hv : f a = Config.unlistedWord
      · simpa [hv] using ih hl hb
      · simpa [hv, Memory.read, hne] using ih hl hb

/-- Every word of a loaded array reads as the array says. -/
theorem Memory.read_ofImage (image : Word → Word) (a : Word) : (Memory.ofImage image).read a.toNat = image a := by
  unfold Memory.ofImage
  rw [Memory.read_tabulated (fun n => image (BitVec.ofNat 16 n)) List.nodup_range (List.mem_range.mpr a.isLt)]
  simp

/-! ### The same, of storage words -/

theorem setWord_word (s : State) (a b v : Word) : (s.setWord a v).word b = if b = a then v else s.word b := by
  simp only [State.setWord, State.word, Memory.read_write]
  by_cases h : b = a
  · simp [h]
  · have : b.toNat ≠ a.toNat := fun e => h (BitVec.eq_of_toNat_eq e)
    simp [h, this]

@[simp] theorem setWord_word_self (s : State) (a v : Word) : (s.setWord a v).word a = v := by
  simp [setWord_word]

theorem setWord_word_of_ne (s : State) {a b : Word} (v : Word) (h : b ≠ a) : (s.setWord a v).word b = s.word b := by
  simp [setWord_word, h]

theorem setWord_memWf {s : State} (h : s.mem.wf) (a v : Word) : (s.setWord a v).mem.wf :=
  Memory.wf_write h a.isLt v

theorem countStep_word (s : State) (a : Word) :
    (countStep s).word a = if a = counterAddr then s.word counterAddr + 1#16 else s.word a :=
  setWord_word s _ _ _

theorem reset_memWf : State.reset.mem.wf := Memory.wf_nil

end Sys2Proof.Machine
end

