-- ==== Sys2Proof/Laws/State.lean ====
section
/-! SUPPORT. One lemma per field of State per update, and what the reads `reg`, `word`, `npc` see of each. -/

namespace Sys2Proof.Machine

variable (s : State)

/-! ### `setReg` -/

@[simp] theorem setReg_regs (r : RegNum) (v : Word) : (s.setReg r v).regs = s.regs.set r.toNat v := rfl
@[simp] theorem setReg_pc (r : RegNum) (v : Word) : (s.setReg r v).pc = s.pc := rfl
@[simp] theorem setReg_flags (r : RegNum) (v : Word) : (s.setReg r v).flags = s.flags := rfl
@[simp] theorem setReg_runState (r : RegNum) (v : Word) : (s.setReg r v).runState = s.runState := rfl
@[simp] theorem setReg_mem (r : RegNum) (v : Word) : (s.setReg r v).mem = s.mem := rfl
@[simp] theorem setReg_fault (r : RegNum) (v : Word) : (s.setReg r v).fault = s.fault := rfl
@[simp] theorem setReg_loaded (r : RegNum) (v : Word) : (s.setReg r v).loaded = s.loaded := rfl
@[simp] theorem setReg_input (r : RegNum) (v : Word) : (s.setReg r v).input = s.input := rfl
@[simp] theorem setReg_output (r : RegNum) (v : Word) : (s.setReg r v).output = s.output := rfl
@[simp] theorem setReg_waiting (r : RegNum) (v : Word) : (s.setReg r v).waiting = s.waiting := rfl
@[simp] theorem setReg_inPrompt (r : RegNum) (v : Word) : (s.setReg r v).inPrompt = s.inPrompt := rfl
@[simp] theorem setReg_word (r : RegNum) (v : Word) (b : Word) : (s.setReg r v).word b = s.word b := rfl
@[simp] theorem setReg_npc (r : RegNum) (v : Word) : (s.setReg r v).npc = s.npc := rfl

/-! ### `setWord` -/

@[simp] theorem setWord_regs (a v : Word) : (s.setWord a v).regs = s.regs := rfl
@[simp] theorem setWord_pc (a v : Word) : (s.setWord a v).pc = s.pc := rfl
@[simp] theorem setWord_flags (a v : Word) : (s.setWord a v).flags = s.flags := rfl
@[simp] theorem setWord_runState (a v : Word) : (s.setWord a v).runState = s.runState := rfl
@[simp] theorem setWord_mem (a v : Word) : (s.setWord a v).mem = s.mem.write a.toNat v := rfl
@[simp] theorem setWord_fault (a v : Word) : (s.setWord a v).fault = s.fault := rfl
@[simp] theorem setWord_loaded (a v : Word) : (s.setWord a v).loaded = s.loaded := rfl
@[simp] theorem setWord_input (a v : Word) : (s.setWord a v).input = s.input := rfl
@[simp] theorem setWord_output (a v : Word) : (s.setWord a v).output = s.output := rfl
@[simp] theorem setWord_waiting (a v : Word) : (s.setWord a v).waiting = s.waiting := rfl
@[simp] theorem setWord_inPrompt (a v : Word) : (s.setWord a v).inPrompt = s.inPrompt := rfl
@[simp] theorem setWord_reg (a v : Word) (q : RegNum) : (s.setWord a v).reg q = s.reg q := rfl
@[simp] theorem setWord_npc (a v : Word) : (s.setWord a v).npc = s.npc := rfl

/-! ### `outWrite` -/

@[simp] theorem outWrite_regs (c : Character) : (outWrite c s).regs = s.regs := rfl
@[simp] theorem outWrite_pc (c : Character) : (outWrite c s).pc = s.pc := rfl
@[simp] theorem outWrite_flags (c : Character) : (outWrite c s).flags = s.flags := rfl
@[simp] theorem outWrite_runState (c : Character) : (outWrite c s).runState = s.runState := rfl
@[simp] theorem outWrite_mem (c : Character) : (outWrite c s).mem = s.mem := rfl
@[simp] theorem outWrite_fault (c : Character) : (outWrite c s).fault = s.fault := rfl
@[simp] theorem outWrite_loaded (c : Character) : (outWrite c s).loaded = s.loaded := rfl
@[simp] theorem outWrite_input (c : Character) : (outWrite c s).input = s.input := rfl
@[simp] theorem outWrite_output (c : Character) : (outWrite c s).output = s.output ++ [c] := rfl
@[simp] theorem outWrite_waiting (c : Character) : (outWrite c s).waiting = s.waiting := rfl
@[simp] theorem outWrite_inPrompt (c : Character) : (outWrite c s).inPrompt = s.inPrompt := rfl
@[simp] theorem outWrite_reg (c : Character) (q : RegNum) : (outWrite c s).reg q = s.reg q := rfl
@[simp] theorem outWrite_word (c : Character) (b : Word) : (outWrite c s).word b = s.word b := rfl
@[simp] theorem outWrite_npc (c : Character) : (outWrite c s).npc = s.npc := rfl

/-! ### `outWriteAll` -/

@[simp] theorem outWriteAll_regs (cs : List Character) : (outWriteAll cs s).regs = s.regs := rfl
@[simp] theorem outWriteAll_pc (cs : List Character) : (outWriteAll cs s).pc = s.pc := rfl
@[simp] theorem outWriteAll_flags (cs : List Character) : (outWriteAll cs s).flags = s.flags := rfl
@[simp] theorem outWriteAll_runState (cs : List Character) : (outWriteAll cs s).runState = s.runState := rfl
@[simp] theorem outWriteAll_mem (cs : List Character) : (outWriteAll cs s).mem = s.mem := rfl
@[simp] theorem outWriteAll_fault (cs : List Character) : (outWriteAll cs s).fault = s.fault := rfl
@[simp] theorem outWriteAll_loaded (cs : List Character) : (outWriteAll cs s).loaded = s.loaded := rfl
@[simp] theorem outWriteAll_input (cs : List Character) : (outWriteAll cs s).input = s.input := rfl
@[simp] theorem outWriteAll_output (cs : List Character) : (outWriteAll cs s).output = s.output ++ cs := rfl
@[simp] theorem outWriteAll_waiting (cs : List Character) : (outWriteAll cs s).waiting = s.waiting := rfl
@[simp] theorem outWriteAll_inPrompt (cs : List Character) : (outWriteAll cs s).inPrompt = s.inPrompt := rfl
@[simp] theorem outWriteAll_reg (cs : List Character) (q : RegNum) : (outWriteAll cs s).reg q = s.reg q := rfl
@[simp] theorem outWriteAll_word (cs : List Character) (b : Word) : (outWriteAll cs s).word b = s.word b := rfl
@[simp] theorem outWriteAll_npc (cs : List Character) : (outWriteAll cs s).npc = s.npc := rfl

/-! ### `memWrite` -/

@[simp] theorem memWrite_regs (a v : Word) : (memWrite a v s).regs = s.regs := rfl
@[simp] theorem memWrite_pc (a v : Word) : (memWrite a v s).pc = s.pc := rfl
@[simp] theorem memWrite_flags (a v : Word) : (memWrite a v s).flags = s.flags := rfl
@[simp] theorem memWrite_runState (a v : Word) : (memWrite a v s).runState = s.runState := rfl
@[simp] theorem memWrite_mem (a v : Word) : (memWrite a v s).mem = s.mem.write a.toNat v := rfl
@[simp] theorem memWrite_fault (a v : Word) : (memWrite a v s).fault = s.fault := rfl
@[simp] theorem memWrite_loaded (a v : Word) : (memWrite a v s).loaded = s.loaded := rfl
@[simp] theorem memWrite_input (a v : Word) : (memWrite a v s).input = s.input := rfl
@[simp] theorem memWrite_output (a v : Word) : (memWrite a v s).output = s.output := rfl
@[simp] theorem memWrite_waiting (a v : Word) : (memWrite a v s).waiting = s.waiting := rfl
@[simp] theorem memWrite_inPrompt (a v : Word) : (memWrite a v s).inPrompt = s.inPrompt := rfl
@[simp] theorem memWrite_reg (a v : Word) (q : RegNum) : (memWrite a v s).reg q = s.reg q := rfl
@[simp] theorem memWrite_npc (a v : Word) : (memWrite a v s).npc = s.npc := rfl

/-! ### `commit` -/

@[simp] theorem commit_regs (target : Word) : (commit target s).regs = s.regs := rfl
@[simp] theorem commit_pc (target : Word) : (commit target s).pc = target := rfl
@[simp] theorem commit_flags (target : Word) : (commit target s).flags = s.flags := rfl
@[simp] theorem commit_runState (target : Word) : (commit target s).runState = s.runState := rfl
@[simp] theorem commit_mem (target : Word) : (commit target s).mem = s.mem := rfl
@[simp] theorem commit_fault (target : Word) : (commit target s).fault = s.fault := rfl
@[simp] theorem commit_loaded (target : Word) : (commit target s).loaded = s.loaded := rfl
@[simp] theorem commit_input (target : Word) : (commit target s).input = s.input := rfl
@[simp] theorem commit_output (target : Word) : (commit target s).output = s.output := rfl
@[simp] theorem commit_waiting (target : Word) : (commit target s).waiting = s.waiting := rfl
@[simp] theorem commit_inPrompt (target : Word) : (commit target s).inPrompt = s.inPrompt := rfl
@[simp] theorem commit_reg (target : Word) (q : RegNum) : (commit target s).reg q = s.reg q := rfl
@[simp] theorem commit_word (target : Word) (b : Word) : (commit target s).word b = s.word b := rfl

/-! ### `advance` -/

@[simp] theorem advance_regs : (advance s).regs = s.regs := rfl
@[simp] theorem advance_pc : (advance s).pc = s.npc := rfl
@[simp] theorem advance_flags : (advance s).flags = s.flags := rfl
@[simp] theorem advance_runState : (advance s).runState = s.runState := rfl
@[simp] theorem advance_mem : (advance s).mem = s.mem := rfl
@[simp] theorem advance_fault : (advance s).fault = s.fault := rfl
@[simp] theorem advance_loaded : (advance s).loaded = s.loaded := rfl
@[simp] theorem advance_input : (advance s).input = s.input := rfl
@[simp] theorem advance_output : (advance s).output = s.output := rfl
@[simp] theorem advance_waiting : (advance s).waiting = s.waiting := rfl
@[simp] theorem advance_inPrompt : (advance s).inPrompt = s.inPrompt := rfl
@[simp] theorem advance_reg (q : RegNum) : (advance s).reg q = s.reg q := rfl
@[simp] theorem advance_word (b : Word) : (advance s).word b = s.word b := rfl

/-! ### `raiseUnimplementedTrap` -/

@[simp] theorem raiseUnimplementedTrap_regs (vec : BitVec 8) (w : Word) : (raiseUnimplementedTrap vec w s).regs = s.regs := rfl
@[simp] theorem raiseUnimplementedTrap_pc (vec : BitVec 8) (w : Word) : (raiseUnimplementedTrap vec w s).pc = s.pc := rfl
@[simp] theorem raiseUnimplementedTrap_flags (vec : BitVec 8) (w : Word) : (raiseUnimplementedTrap vec w s).flags = s.flags := rfl
@[simp] theorem raiseUnimplementedTrap_runState (vec : BitVec 8) (w : Word) : (raiseUnimplementedTrap vec w s).runState = .stopped := rfl
@[simp] theorem raiseUnimplementedTrap_mem (vec : BitVec 8) (w : Word) : (raiseUnimplementedTrap vec w s).mem = s.mem := rfl
@[simp] theorem raiseUnimplementedTrap_fault (vec : BitVec 8) (w : Word) : (raiseUnimplementedTrap vec w s).fault = some ⟨vec, s.pc, w⟩ := rfl
@[simp] theorem raiseUnimplementedTrap_loaded (vec : BitVec 8) (w : Word) : (raiseUnimplementedTrap vec w s).loaded = s.loaded := rfl
@[simp] theorem raiseUnimplementedTrap_input (vec : BitVec 8) (w : Word) : (raiseUnimplementedTrap vec w s).input = s.input := rfl
@[simp] theorem raiseUnimplementedTrap_output (vec : BitVec 8) (w : Word) : (raiseUnimplementedTrap vec w s).output = s.output := rfl
@[simp] theorem raiseUnimplementedTrap_waiting (vec : BitVec 8) (w : Word) : (raiseUnimplementedTrap vec w s).waiting = s.waiting := rfl
@[simp] theorem raiseUnimplementedTrap_inPrompt (vec : BitVec 8) (w : Word) : (raiseUnimplementedTrap vec w s).inPrompt = s.inPrompt := rfl
@[simp] theorem raiseUnimplementedTrap_reg (vec : BitVec 8) (w : Word) (q : RegNum) : (raiseUnimplementedTrap vec w s).reg q = s.reg q := rfl
@[simp] theorem raiseUnimplementedTrap_word (vec : BitVec 8) (w : Word) (b : Word) : (raiseUnimplementedTrap vec w s).word b = s.word b := rfl
@[simp] theorem raiseUnimplementedTrap_npc (vec : BitVec 8) (w : Word) : (raiseUnimplementedTrap vec w s).npc = s.npc := rfl

/-! ### `countStep` -/

@[simp] theorem countStep_regs : (countStep s).regs = s.regs := rfl
@[simp] theorem countStep_pc : (countStep s).pc = s.pc := rfl
@[simp] theorem countStep_flags : (countStep s).flags = s.flags := rfl
@[simp] theorem countStep_runState : (countStep s).runState = s.runState := rfl
@[simp] theorem countStep_mem : (countStep s).mem = s.mem.write counterAddr.toNat (s.word counterAddr + 1#16) := rfl
@[simp] theorem countStep_fault : (countStep s).fault = s.fault := rfl
@[simp] theorem countStep_loaded : (countStep s).loaded = s.loaded := rfl
@[simp] theorem countStep_input : (countStep s).input = s.input := rfl
@[simp] theorem countStep_output : (countStep s).output = s.output := rfl
@[simp] theorem countStep_waiting : (countStep s).waiting = s.waiting := rfl
@[simp] theorem countStep_inPrompt : (countStep s).inPrompt = s.inPrompt := rfl
@[simp] theorem countStep_reg (q : RegNum) : (countStep s).reg q = s.reg q := rfl
@[simp] theorem countStep_npc : (countStep s).npc = s.npc := rfl

/-! ### `setcc` -/

@[simp] theorem setcc_regs (v : Word) : (setcc v s).regs = s.regs := rfl
@[simp] theorem setcc_pc (v : Word) : (setcc v s).pc = s.pc := rfl
@[simp] theorem setcc_flags (v : Word) : (setcc v s).flags = flagsOf v := rfl
@[simp] theorem setcc_runState (v : Word) : (setcc v s).runState = s.runState := rfl
@[simp] theorem setcc_mem (v : Word) : (setcc v s).mem = s.mem := rfl
@[simp] theorem setcc_fault (v : Word) : (setcc v s).fault = s.fault := rfl
@[simp] theorem setcc_loaded (v : Word) : (setcc v s).loaded = s.loaded := rfl
@[simp] theorem setcc_input (v : Word) : (setcc v s).input = s.input := rfl
@[simp] theorem setcc_output (v : Word) : (setcc v s).output = s.output := rfl
@[simp] theorem setcc_waiting (v : Word) : (setcc v s).waiting = s.waiting := rfl
@[simp] theorem setcc_inPrompt (v : Word) : (setcc v s).inPrompt = s.inPrompt := rfl
@[simp] theorem setcc_reg (v : Word) (q : RegNum) : (setcc v s).reg q = s.reg q := rfl
@[simp] theorem setcc_word (v : Word) (b : Word) : (setcc v s).word b = s.word b := rfl
@[simp] theorem setcc_npc (v : Word) : (setcc v s).npc = s.npc := rfl

/-! ### `writeResult` -/

@[simp] theorem writeResult_regs (dr : RegNum) (v : Word) : (writeResult dr v s).regs = s.regs.set dr.toNat v := rfl
@[simp] theorem writeResult_pc (dr : RegNum) (v : Word) : (writeResult dr v s).pc = s.pc := rfl
@[simp] theorem writeResult_flags (dr : RegNum) (v : Word) : (writeResult dr v s).flags = flagsOf v := rfl
@[simp] theorem writeResult_runState (dr : RegNum) (v : Word) : (writeResult dr v s).runState = s.runState := rfl
@[simp] theorem writeResult_mem (dr : RegNum) (v : Word) : (writeResult dr v s).mem = s.mem := rfl
@[simp] theorem writeResult_fault (dr : RegNum) (v : Word) : (writeResult dr v s).fault = s.fault := rfl
@[simp] theorem writeResult_loaded (dr : RegNum) (v : Word) : (writeResult dr v s).loaded = s.loaded := rfl
@[simp] theorem writeResult_input (dr : RegNum) (v : Word) : (writeResult dr v s).input = s.input := rfl
@[simp] theorem writeResult_output (dr : RegNum) (v : Word) : (writeResult dr v s).output = s.output := rfl
@[simp] theorem writeResult_waiting (dr : RegNum) (v : Word) : (writeResult dr v s).waiting = s.waiting := rfl
@[simp] theorem writeResult_inPrompt (dr : RegNum) (v : Word) : (writeResult dr v s).inPrompt = s.inPrompt := rfl
@[simp] theorem writeResult_word (dr : RegNum) (v : Word) (b : Word) : (writeResult dr v s).word b = s.word b := rfl
@[simp] theorem writeResult_npc (dr : RegNum) (v : Word) : (writeResult dr v s).npc = s.npc := rfl

/-! ### `beginStep` -/

@[simp] theorem beginStep_regs : (beginStep s).regs = s.regs := rfl
@[simp] theorem beginStep_pc : (beginStep s).pc = s.pc := rfl
@[simp] theorem beginStep_flags : (beginStep s).flags = s.flags := rfl
@[simp] theorem beginStep_runState : (beginStep s).runState = .running := rfl
@[simp] theorem beginStep_mem : (beginStep s).mem = s.mem := rfl
@[simp] theorem beginStep_fault : (beginStep s).fault = s.fault := rfl
@[simp] theorem beginStep_loaded : (beginStep s).loaded = s.loaded := rfl
@[simp] theorem beginStep_input : (beginStep s).input = s.input := rfl
@[simp] theorem beginStep_output : (beginStep s).output = s.output := rfl
@[simp] theorem beginStep_waiting : (beginStep s).waiting = s.waiting := rfl
@[simp] theorem beginStep_inPrompt : (beginStep s).inPrompt = s.inPrompt := rfl
@[simp] theorem beginStep_reg (q : RegNum) : (beginStep s).reg q = s.reg q := rfl
@[simp] theorem beginStep_word (b : Word) : (beginStep s).word b = s.word b := rfl
@[simp] theorem beginStep_npc : (beginStep s).npc = s.npc := rfl

/-! ### Registers -/

theorem setReg_reg (r q : RegNum) (v : Word) : (s.setReg r v).reg q = if q = r then v else s.reg q := by
  simp only [State.setReg, State.reg, Vector.getElem_set]
  by_cases h : q = r
  · simp [h]
  · have : r.toNat ≠ q.toNat := fun e => h (BitVec.eq_of_toNat_eq e.symm)
    simp [h, this]

@[simp] theorem setReg_reg_self (r : RegNum) (v : Word) : (s.setReg r v).reg r = v := by
  simp [setReg_reg]

theorem setReg_reg_of_ne {r q : RegNum} (v : Word) (h : q ≠ r) : (s.setReg r v).reg q = s.reg q := by
  simp [setReg_reg, h]

theorem writeResult_reg (r q : RegNum) (v : Word) : (writeResult r v s).reg q = if q = r then v else s.reg q :=
  setReg_reg s r q v

end Sys2Proof.Machine
end

