-- ==== Sys2Proof/Laws/Ops.lean ====
section
/-! SUPPORT. What each shared operation can do, said once: the reads, the blocking read, the string walks. -/

namespace Sys2Proof.Machine

/-! ### `MemRead` -/

theorem readStatus_cases (s : State) :
    (s.input.next = none ∧ readStatus s = (0#16, s)) ∨
    (∃ rest, s.input.next = some (.notReady, rest) ∧ readStatus s = (0#16, { s with input := rest })) ∨
    ∃ c rest, s.input.next = some (.char c, rest) ∧
      readStatus s = (charAvailable, { s with input := rest }.setWord kbdrAddr (zext c)) := by
  unfold readStatus
  split
  · next h => exact .inl ⟨h, rfl⟩
  · next rest h => exact .inr (.inl ⟨rest, h, rfl⟩)
  · next c rest h => exact .inr (.inr ⟨c, rest, h, rfl⟩)

/-- Everything a `MemRead` can do: read plain storage, or one of the three outcomes of a status read. -/
theorem memRead_cases (a : Word) (s : State) :
    (a ≠ kbsrAddr ∧ memRead a s = (s.word a, s)) ∨
    (a = kbsrAddr ∧ s.input.next = none ∧ memRead a s = (0#16, s)) ∨
    (∃ rest, a = kbsrAddr ∧ s.input.next = some (.notReady, rest) ∧ memRead a s = (0#16, { s with input := rest })) ∨
    ∃ c rest, a = kbsrAddr ∧ s.input.next = some (.char c, rest) ∧
      memRead a s = (charAvailable, { s with input := rest }.setWord kbdrAddr (zext c)) := by
  by_cases h : a = kbsrAddr
  · simp only [memRead, h, if_true, ne_eq, not_true_eq_false, false_and, true_and, false_or]
    exact readStatus_cases s
  · exact .inl ⟨h, by simp [memRead, h]⟩

theorem memRead_plain {a : Word} (s : State) (h : a ≠ kbsrAddr) : memRead a s = (s.word a, s) := by
  simp [memRead, h]

@[simp] theorem memRead_regs (a : Word) (s : State) : (memRead a s).2.regs = s.regs := by
  rcases memRead_cases a s with ⟨_, h⟩ | ⟨_, _, h⟩ | ⟨_, _, _, h⟩ | ⟨_, _, _, _, h⟩ <;> simp [h]

@[simp] theorem memRead_pc (a : Word) (s : State) : (memRead a s).2.pc = s.pc := by
  rcases memRead_cases a s with ⟨_, h⟩ | ⟨_, _, h⟩ | ⟨_, _, _, h⟩ | ⟨_, _, _, _, h⟩ <;> simp [h]

@[simp] theorem memRead_flags (a : Word) (s : State) : (memRead a s).2.flags = s.flags := by
  rcases memRead_cases a s with ⟨_, h⟩ | ⟨_, _, h⟩ | ⟨_, _, _, h⟩ | ⟨_, _, _, _, h⟩ <;> simp [h]

@[simp] theorem memRead_runState (a : Word) (s : State) : (memRead a s).2.runState = s.runState := by
  rcases memRead_cases a s with ⟨_, h⟩ | ⟨_, _, h⟩ | ⟨_, _, _, h⟩ | ⟨_, _, _, _, h⟩ <;> simp [h]

@[simp] theorem memRead_fault (a : Word) (s : State) : (memRead a s).2.fault = s.fault := by
  rcases memRead_cases a s with ⟨_, h⟩ | ⟨_, _, h⟩ | ⟨_, _, _, h⟩ | ⟨_, _, _, _, h⟩ <;> simp [h]

@[simp] theorem memRead_loaded (a : Word) (s : State) : (memRead a s).2.loaded = s.loaded := by
  rcases memRead_cases a s with ⟨_, h⟩ | ⟨_, _, h⟩ | ⟨_, _, _, h⟩ | ⟨_, _, _, _, h⟩ <;> simp [h]

@[simp] theorem memRead_output (a : Word) (s : State) : (memRead a s).2.output = s.output := by
  rcases memRead_cases a s with ⟨_, h⟩ | ⟨_, _, h⟩ | ⟨_, _, _, h⟩ | ⟨_, _, _, _, h⟩ <;> simp [h]

@[simp] theorem memRead_waiting (a : Word) (s : State) : (memRead a s).2.waiting = s.waiting := by
  rcases memRead_cases a s with ⟨_, h⟩ | ⟨_, _, h⟩ | ⟨_, _, _, h⟩ | ⟨_, _, _, _, h⟩ <;> simp [h]

@[simp] theorem memRead_inPrompt (a : Word) (s : State) : (memRead a s).2.inPrompt = s.inPrompt := by
  rcases memRead_cases a s with ⟨_, h⟩ | ⟨_, _, h⟩ | ⟨_, _, _, h⟩ | ⟨_, _, _, _, h⟩ <;> simp [h]

@[simp] theorem memRead_reg (a : Word) (s : State) (r : RegNum) : (memRead a s).2.reg r = s.reg r := by
  simp [State.reg]

@[simp] theorem memRead_npc (a : Word) (s : State) : (memRead a s).2.npc = s.npc := by simp [State.npc]

/-- A read changes no word but the input-data latch. -/
theorem memRead_word {a b : Word} (s : State) (hb : b ≠ kbdrAddr) : (memRead a s).2.word b = s.word b := by
  rcases memRead_cases a s with ⟨_, h⟩ | ⟨_, _, h⟩ | ⟨_, _, _, h⟩ | ⟨_, _, _, _, h⟩
  · simp [h]
  · simp [h]
  · simp [h, State.word]
  · rw [h]; exact setWord_word_of_ne _ _ hb

/-- A read uses up answers of the input collaborator from the front only. -/
theorem memRead_input (a : Word) (s : State) : s.input.UsedTo (memRead a s).2.input := by
  rcases memRead_cases a s with ⟨_, h⟩ | ⟨_, _, h⟩ | ⟨rest, _, e, h⟩ | ⟨c, rest, _, e, h⟩ <;> rw [h]
  · exact .refl _
  · exact .refl _
  · exact .of_next e
  · exact .of_next e

/-- A read that has used up no answer of the input collaborator changes nothing. -/
theorem memRead_eq_of_input {a : Word} {s : State} (hi : (memRead a s).2.input = s.input) : (memRead a s).2 = s := by
  rcases memRead_cases a s with ⟨_, h⟩ | ⟨_, _, h⟩ | ⟨rest, _, e, h⟩ | ⟨c, rest, _, e, h⟩
  · rw [h]
  · rw [h]
  all_goals
    rw [h] at hi
    have := position_next e
    simp only [setWord_input] at hi
    rw [hi] at this
    omega

theorem memRead_memWf {a : Word} {s : State} (hw : s.mem.wf) : (memRead a s).2.mem.wf := by
  rcases memRead_cases a s with ⟨_, h⟩ | ⟨_, _, h⟩ | ⟨rest, _, e, h⟩ | ⟨c, rest, _, e, h⟩ <;> rw [h]
  · exact hw
  · exact hw
  · exact hw
  · exact setWord_memWf (s := { s with input := rest }) hw _ _

/-! ### Flags -/

/-- Exactly one flag is true of every word (R28): one of three flag states. -/
theorem flagsOf_cases (v : Word) :
    flagsOf v = ⟨true, false, false⟩ ∨ flagsOf v = ⟨false, true, false⟩ ∨ flagsOf v = ⟨false, false, true⟩ := by
  unfold flagsOf
  by_cases hz : v = 0#16
  · subst hz; exact .inr (.inl rfl)
  · cases hn : v.getLsbD 15 <;> simp [hz]

/-! ### The blocking read -/

/-- Everything a blocking read can do: hold the step, or finish with the next character. -/
theorem blockingRead_cases (k : BlockedRead) (s : State) :
    (NoCharComes s ∧ blockingRead k s = { s with waiting := some (.read k) }) ∨
    ∃ c rest, NextCharIs s c rest ∧
      blockingRead k s = finishRead k c { s with input := rest, waiting := none } := by
  unfold blockingRead
  split
  · next h => exact .inl ⟨nextChar_eq_none.mp h, rfl⟩
  · next c rest h => exact .inr ⟨c, rest, nextChar_eq_some.mp h, rfl⟩

/-! ### The string walks -/

theorem outWriteAll_nil (s : State) : outWriteAll [] s = s := by simp [outWriteAll]

/-- What a string walk has left alone, and how it has moved memory and the ports. -/
structure Walked (s t : State) : Prop where
  regs : t.regs = s.regs
  pc : t.pc = s.pc
  flags : t.flags = s.flags
  runState : t.runState = s.runState
  fault : t.fault = s.fault
  loaded : t.loaded = s.loaded
  waiting : t.waiting = s.waiting
  inPrompt : t.inPrompt = s.inPrompt
  output : s.output <+: t.output
  input : s.input.UsedTo t.input
  word : ∀ b, b ≠ kbdrAddr → t.word b = s.word b
  latch : t.input = s.input → t.mem = s.mem
  memWf : s.mem.wf → t.mem.wf

theorem Walked.refl (s : State) : Walked s s where
  regs := rfl
  pc := rfl
  flags := rfl
  runState := rfl
  fault := rfl
  loaded := rfl
  waiting := rfl
  inPrompt := rfl
  output := List.prefix_refl _
  input := .refl _
  word _ _ := rfl
  latch _ := rfl
  memWf h := h

theorem Walked.trans {s t u : State} (h : Walked s t) (h' : Walked t u) : Walked s u where
  regs := h'.regs.trans h.regs
  pc := h'.pc.trans h.pc
  flags := h'.flags.trans h.flags
  runState := h'.runState.trans h.runState
  fault := h'.fault.trans h.fault
  loaded := h'.loaded.trans h.loaded
  waiting := h'.waiting.trans h.waiting
  inPrompt := h'.inPrompt.trans h.inPrompt
  output := h.output.trans h'.output
  input := h.input.trans h'.input
  word b hb := (h'.word b hb).trans (h.word b hb)
  latch hi := by
    have e : t.input = s.input := h.input.eq_of_back h'.input hi
    rw [h'.latch (hi.trans e.symm), h.latch e]
  memWf hw := h'.memWf (h.memWf hw)

/-- One word of a walk: read, and some characters written. -/
theorem Walked.word_read (a : Word) (s : State) (cs : List Character) :
    Walked s (outWriteAll cs (memRead a s).2) where
  regs := by simp
  pc := by simp
  flags := by simp
  runState := by simp
  fault := by simp
  loaded := by simp
  waiting := by simp
  inPrompt := by simp
  output := by simp
  input := by simpa using memRead_input a s
  word b hb := by simpa using memRead_word s hb
  latch h := by simpa using congrArg State.mem (memRead_eq_of_input (by simpa using h))
  memWf h := by simpa using memRead_memWf h

/-- Everything PUTS's loop can do: walk to the end and commit, or stand in the walk. -/
theorem putsLoop_cases (fuel : Nat) (a : Word) (s : State) :
    ∃ u, Walked s u ∧
      (putsLoop fuel a s = advance u ∨ ∃ b, putsLoop fuel a s = { u with waiting := some (.puts b) }) := by
  induction fuel generalizing a s with
  | zero => exact ⟨s, .refl s, .inr ⟨a, rfl⟩⟩
  | succ fuel ih =>
    simp only [putsLoop]
    split
    · exact ⟨_, by simpa only [outWriteAll_nil] using Walked.word_read a s [], .inl rfl⟩
    · obtain ⟨u, hu, h⟩ := ih (a + 1#16) (outWrite (lowByte (memRead a s).1) (memRead a s).2)
      exact ⟨u, (Walked.word_read a s [_]).trans hu, h⟩

/-- Everything PUTSP's loop can do: walk to the end and commit, or stand in the walk. -/
theorem putspLoop_cases (fuel : Nat) (a : Word) (s : State) :
    ∃ u, Walked s u ∧
      (putspLoop fuel a s = advance u ∨ ∃ b, putspLoop fuel a s = { u with waiting := some (.putsp b) }) := by
  induction fuel generalizing a s with
  | zero => exact ⟨s, .refl s, .inr ⟨a, rfl⟩⟩
  | succ fuel ih =>
    simp only [putspLoop]
    split
    · exact ⟨_, by simpa only [outWriteAll_nil] using Walked.word_read a s [], .inl rfl⟩
    · split
      · exact ⟨_, Walked.word_read a s [_], .inl rfl⟩
      · obtain ⟨u, hu, h⟩ := ih (a + 1#16)
          (outWrite (highByte (memRead a s).1) (outWrite (lowByte (memRead a s).1) (memRead a s).2))
        refine ⟨u, (Walked.word_read a s [lowByte (memRead a s).1, highByte (memRead a s).1]).trans ?_, h⟩
        simpa [outWriteAll, outWrite] using hu

/-! ### The counter -/

theorem finishStep_of_completed {s : State} (hf : s.fault = none) (hw : s.waiting = none) :
    finishStep s = countStep s := by simp [finishStep, hf, hw]

/-- What follows an instruction: the count, or nothing. -/
theorem finishStep_cases (s : State) :
    (s.fault = none ∧ s.waiting = none ∧ finishStep s = countStep s) ∨
    ((s.fault.isSome = true ∨ s.waiting.isSome = true) ∧ finishStep s = s) := by
  unfold finishStep
  cases hf : s.fault <;> cases hw : s.waiting <;> simp

end Sys2Proof.Machine
end

