-- ==== Sys2Proof/Laws/Effects.lean ====
section
/-! SUPPORT. The shared bodies of the operate, load and store instructions: everything each does, said once. -/

namespace Sys2Proof.Machine

/-- The flags of a value are its sign (R28). -/
theorem flagsOf_sign (v : Word) : SignFlags (flagsOf v) v := by
  have hlt := v.isLt
  have hn : v.getLsbD 15 = decide (32768 ≤ v.toNat) := by
    rw [show (15 : Nat) = 16 - 1 from rfl, ← BitVec.msb_eq_getLsbD_last, BitVec.msb_eq_decide]
  have hz : (v == 0#16) = decide (v.toNat = 0) := by rw [Bool.eq_iff_iff]; simp [← BitVec.toNat_inj]
  simp only [SignFlags, flagsOf]
  refine ⟨?_, ?_, ?_⟩ <;>
    simp only [bne, hn, hz, BitVec.toInt_eq_toNat_cond, Bool.and_eq_true, Bool.not_eq_true', decide_eq_true_eq,
      decide_eq_false_iff_not] <;>
    split <;> omega

/-- `x[DR] <- v; setcc(v)` and the commit (R29, R116). -/
theorem advance_writeResult (dr : RegNum) (v : Word) (s : State) :
    ResultWritten dr v s (advance (writeResult dr v s)) := by
  refine ⟨by simp [writeResult_reg], by simpa using flagsOf_sign v, fun r hr => ?_, rfl, rfl, rfl, rfl, rfl, rfl⟩
  simp [writeResult_reg, hr]

/-- Everything the operate instructions can do. -/
theorem operate_next (dr : RegNum) (v : Word) (s : State) :
    ∃ t, operate dr v s = .next t ∧ ResultWritten dr v s t ∧ SameMem s t ∧ SamePorts s t :=
  ⟨_, rfl, advance_writeResult dr v s, fun _ => rfl, rfl, rfl⟩

/-- Everything the loads can do after their effective address is known. -/
theorem loadFrom_next (dr : RegNum) (ea : Word) (s : State) :
    ∃ t, loadFrom dr ea s = .next t ∧ ResultWritten dr (memRead ea s).1 s t ∧ SameMem (memRead ea s).2 t ∧
      SamePorts (memRead ea s).2 t := by
  obtain ⟨h1, h2, h3, h4, h5, h6, h7, h8, h9⟩ := advance_writeResult dr (memRead ea s).1 (memRead ea s).2
  refine ⟨advance (writeResult dr (memRead ea s).1 (memRead ea s).2), rfl, 
    ⟨h1, h2, fun r hr => ?_, ?_, ?_, ?_, ?_, ?_, ?_⟩, fun _ => rfl, rfl, rfl⟩
  · simpa using h3 r hr
  all_goals simp [State.npc]

/-- Everything the stores can do after their effective address is known. -/
theorem storeTo_next (sr : RegNum) (ea : Word) (s : State) :
    ∃ t, storeTo sr ea s = .next t ∧ WordStored ea (s.reg sr) s t :=
  ⟨_, rfl, by simp [memWrite], fun _ ha => setWord_word_of_ne _ _ ha, fun _ => rfl, rfl, rfl, ⟨rfl, rfl⟩, rfl, rfl,
    rfl, rfl, rfl⟩

end Sys2Proof.Machine
end

