-- ==== Sys2Proof/Laws/Encoding.lean ====
section
/-! SUPPORT. The small lemmas of bit fields and of the decoder's second level. -/

namespace Sys2Proof

@[simp] theorem bits_getLsbD (w : Word) (hi lo k : Nat) :
    (bits w hi lo).getLsbD k = (decide (k < hi - lo + 1) && w.getLsbD (lo + k)) := by
  simp [bits]

/-- The opcode field of a concatenation is its first four bits. -/
theorem bits_opcode (op : BitVec 4) (rest : BitVec 12) : bits (op ++ rest : Word) 15 12 = op := by
  apply BitVec.eq_of_getLsbD_eq
  intro k hk
  have hk : k < 4 := hk
  have h1 : ¬ 12 + k < 12 := by omega
  have h2 : 12 + k - 12 = k := by omega
  simp only [bits_getLsbD, BitVec.getLsbD_append, h1, h2, hk, if_false]
  simp [hk]

theorem bits_toNat (w : Word) (hi lo : Nat) : (bits w hi lo).toNat = w.toNat / 2 ^ lo % 2 ^ (hi - lo + 1) := by
  simp [bits, BitVec.extractLsb, BitVec.extractLsb'_toNat, Nat.shiftRight_eq_div_pow]

/-- The second level of the decoder, for a vector that no service has. -/
theorem decodeTrap_of_not_service {vec : BitVec 8} (ign : BitVec 4)
    (h : Machine.serviceVectors.contains vec = false) : decodeTrap ign vec = .trap ign vec := by
  simp only [Machine.serviceVectors, List.contains_eq_mem, List.mem_cons, List.not_mem_nil, or_false,
    decide_eq_false_iff_not, not_or] at h
  simp [decodeTrap, h]

end Sys2Proof
end

