-- ==== Sys2Proof/Laws/PerInstr.lean ====
section
/-! SUPPORT. Statements about every instruction as syntax, one lemma per constructor. -/

namespace Sys2Proof.Laws.OpcodeField

/-- Bits 15:12 of an instruction's word are the opcode number of R82. -/
def Statement (i : Instr) : Prop := bits (encode i) 15 12 = i.opcode

theorem of_encode (i : Instr) : Statement i := bits_opcode i.opcode i.operands

theorem br (n z p : Bool) (off : BitVec 9) : Statement (.br n z p off) := of_encode _
theorem addReg (dr sr1 sr2 : RegNum) : Statement (.addReg dr sr1 sr2) := of_encode _
theorem addImm (dr sr1 : RegNum) (imm : BitVec 5) : Statement (.addImm dr sr1 imm) := of_encode _
theorem ld (dr : RegNum) (off : BitVec 9) : Statement (.ld dr off) := of_encode _
theorem st (sr : RegNum) (off : BitVec 9) : Statement (.st sr off) := of_encode _
theorem jsr (off : BitVec 11) : Statement (.jsr off) := of_encode _
theorem jsrr (base : RegNum) : Statement (.jsrr base) := of_encode _
theorem andReg (dr sr1 sr2 : RegNum) : Statement (.andReg dr sr1 sr2) := of_encode _
theorem andImm (dr sr1 : RegNum) (imm : BitVec 5) : Statement (.andImm dr sr1 imm) := of_encode _
theorem ldr (dr base : RegNum) (off : BitVec 6) : Statement (.ldr dr base off) := of_encode _
theorem str (sr base : RegNum) (off : BitVec 6) : Statement (.str sr base off) := of_encode _
theorem rti : Statement .rti := of_encode _
theorem notReg (dr sr : RegNum) : Statement (.notReg dr sr) := of_encode _
theorem ldi (dr : RegNum) (off : BitVec 9) : Statement (.ldi dr off) := of_encode _
theorem sti (sr : RegNum) (off : BitVec 9) : Statement (.sti sr off) := of_encode _
theorem jmp (base : RegNum) : Statement (.jmp base) := of_encode _
theorem res : Statement .res := of_encode _
theorem lea (dr : RegNum) (off : BitVec 9) : Statement (.lea dr off) := of_encode _
theorem trap (ign : BitVec 4) (vec : BitVec 8) : Statement (.trap ign vec) := of_encode _
theorem getc : Statement .getc := of_encode _
theorem out : Statement .out := of_encode _
theorem puts : Statement .puts := of_encode _
theorem in_ : Statement .in_ := of_encode _
theorem putsp : Statement .putsp := of_encode _
theorem halt : Statement .halt := of_encode _

end Sys2Proof.Laws.OpcodeField
end

