-- ==== Sys2Proof/Laws/Step.lean ====
section
/-! SUPPORT. What one step can do, said once. -/

namespace Sys2Proof.Machine

/-- The three kinds of step that have a next state: none at all while a fault is latched, going on with a
suspended service, or running the instruction fetched. -/
theorem step_cases {s t : State} (h : step s = .next t) :
    (s.fault.isSome = true ∧ t = s) ∨
    (∃ k, s.fault = none ∧ s.waiting = some k ∧ t = finishStep (resumeService k s)) ∨
    (Ready s ∧ ∃ u, exec (decode (fetch (beginStep s)).1) (fetch (beginStep s)).2 = .next u ∧ t = finishStep u) := by
  simp only [step, stepOnce] at h
  split at h
  · next hf => cases h; exact .inl ⟨hf, rfl⟩
  · next hf =>
    have hf : s.fault = none := by simpa using hf
    split at h
    · next k hk => cases h; exact .inr (.inl ⟨k, hf, hk, rfl⟩)
    · next hw =>
      simp only [freshStep] at h
      split at h
      · next hl =>
        simp only [runInstr] at h
        split at h
        · next u hu => cases h; exact .inr (.inr ⟨⟨hl, hf, hw⟩, u, hu, rfl⟩)
        · cases h
        · cases h
      · cases h

/-- The step of a machine inside a service that has not completed. -/
theorem step_of_suspended {s : State} {k : Suspended} (hf : s.fault = none) (hw : s.waiting = some k) :
    step s = .next (finishStep (resumeService k s)) := by
  simp [step, stepOnce, resumeStep, hf, hw]

/-- A ready machine's step is the fetched instruction and what follows it. -/
theorem step_of_ready {s : State} (h : Ready s) :
    step s = runInstr (decode (fetch (beginStep s)).1) (fetch (beginStep s)).2 := by
  simp [step, stepOnce, freshStep, h.1, h.2.1, h.2.2]

/-- A ready machine's step when its instruction answers a next state. -/
theorem step_of_exec {s u : State} (h : Ready s)
    (hu : exec (decode (fetch (beginStep s)).1) (fetch (beginStep s)).2 = .next u) :
    step s = .next (finishStep u) := by
  simp [step_of_ready h, runInstr, hu]

/-- Every constructor has a meaning, and every meaning answers a next state. -/
theorem exec_next (i : Instr) (s : State) : ∃ t, exec i s = .next t := by
  cases i with
  | trap ign vec =>
    simp only [exec, execTrap, serviceGetc, serviceOut, servicePuts, serviceIn, servicePutsp, serviceHalt]
    repeat' split
    all_goals exact ⟨_, rfl⟩
  | _ => exact ⟨_, rfl⟩

/-- The fetch at an address that is not the input-status register reads the word that stands there, so the state
`withFetchWord` makes runs exactly the word given. -/
theorem fetch_withFetchWord (s : State) (nbits w : Nat) :
    (fetch (beginStep (s.withFetchWord nbits w))).1 = BitVec.ofNat 16 (w % 2 ^ nbits) := by
  have hpc : (s.withFetchWord nbits w).pc ≠ kbsrAddr := by
    simp only [State.withFetchWord, placeInstruction, setWord_pc]
    split
    · decide
    · assumption
  have : (beginStep (s.withFetchWord nbits w)).pc ≠ kbsrAddr := hpc
  simp only [fetch, memRead_plain _ this, beginStep_word]
  simp [State.withFetchWord, placeInstruction]

/-- A machine with an instruction placed in it is ready. -/
theorem ready_withFetchWord (s : State) (nbits w : Nat) : Ready (s.withFetchWord nbits w) :=
  ⟨rfl, rfl, rfl⟩

end Sys2Proof.Machine
end

