-- ==== Sys2Proof/Tests/Slice0.lean ====
section
/-! SUPPORT. Small tests, each about one step or one word, with results taken from the spec's own vectors
(`95_test_vectors.md`) and examples; a word written out for every constructor; and a witness for the hypotheses of
every statement. -/

namespace Sys2Proof.Tests

open Sys2Proof.Machine

/-! ### A state for tests -/

/-- After Construct, LoadImage of one word at 0x3000, Reset: the start state of the spec's vectors. -/
def start (w : Nat) : State := State.reset.withFetchWord 16 w

/-- The answer is a next state of which the test holds. -/
def nextHas (o : Host.Outcome State Fault Refusal) (test : State → Bool) : Bool :=
  match o with
  | .next t => test t
  | .fault _ | .refused _ => false

theorem next_of_nextHas {o : Host.Outcome State Fault Refusal} {test : State → Bool} (h : nextHas o test = true) :
    ∃ t, o = .next t ∧ test t = true := by
  cases o with
  | next t => exact ⟨t, rfl, h⟩
  | fault _ => cases h
  | refused _ => cases h

/-- The flags after a result: which one is true. -/
def flagN : Flags := ⟨true, false, false⟩
def flagZ : Flags := ⟨false, true, false⟩
def flagP : Flags := ⟨false, false, true⟩

/-! ### WellFormed -/

/-- The one check: a plain TRAP term with a service's vector is refused, with any bits 11:8. -/
theorem test_wellFormed_refuses_service_vectors :
    (Instr.trap 0#4 0x20#8).wellFormed = false ∧ (Instr.trap 0#4 0x21#8).wellFormed = false ∧
    (Instr.trap 0#4 0x22#8).wellFormed = false ∧ (Instr.trap 0#4 0x23#8).wellFormed = false ∧
    (Instr.trap 0#4 0x24#8).wellFormed = false ∧ (Instr.trap 0xF#4 0x25#8).wellFormed = false := by decide

theorem test_wellFormed_allows_other_vectors :
    (Instr.trap 0#4 0x1F#8).wellFormed = true ∧ (Instr.trap 0#4 0x26#8).wellFormed = true := by decide

/-! ### A word for every constructor, bit by bit from R83 to R92 -/

theorem test_decode_br : decode 0b0000_0_1_0_111111101#16 = .br false true false 0b111111101#9 := by decide
theorem test_decode_addReg : decode 0b0001_011_100_0_00_101#16 = .addReg 3#3 4#3 5#3 := by decide
theorem test_decode_addImm : decode 0b0001_011_100_1_10000#16 = .addImm 3#3 4#3 0b10000#5 := by decide
theorem test_decode_ld : decode 0b0010_110_100000001#16 = .ld 6#3 0b100000001#9 := by decide
theorem test_decode_st : decode 0b0011_110_100000001#16 = .st 6#3 0b100000001#9 := by decide
theorem test_decode_jsr : decode 0b0100_1_10000000001#16 = .jsr 0b10000000001#11 := by decide
theorem test_decode_jsrr : decode 0b0100_0_11_101_111111#16 = .jsrr 5#3 := by decide
theorem test_decode_andReg : decode 0b0101_001_010_0_11_011#16 = .andReg 1#3 2#3 3#3 := by decide
theorem test_decode_andImm : decode 0b0101_001_010_1_11011#16 = .andImm 1#3 2#3 0b11011#5 := by decide
theorem test_decode_ldr : decode 0b0110_001_010_100001#16 = .ldr 1#3 2#3 0b100001#6 := by decide
theorem test_decode_str : decode 0b0111_001_010_100001#16 = .str 1#3 2#3 0b100001#6 := by decide
theorem test_decode_rti : decode 0b1000_101010111100#16 = .rti := by decide
theorem test_decode_notReg : decode 0b1001_101_110_000000#16 = .notReg 5#3 6#3 := by decide
theorem test_decode_ldi : decode 0b1010_110_100000001#16 = .ldi 6#3 0b100000001#9 := by decide
theorem test_decode_sti : decode 0b1011_110_100000001#16 = .sti 6#3 0b100000001#9 := by decide
theorem test_decode_jmp : decode 0b1100_111_010_111111#16 = .jmp 2#3 := by decide
theorem test_decode_res : decode 0b1101_000000000001#16 = .res := by decide
theorem test_decode_lea : decode 0b1110_110_100000001#16 = .lea 6#3 0b100000001#9 := by decide
theorem test_decode_trap : decode 0b1111_1010_00100110#16 = .trap 0b1010#4 0x26#8 := by decide
theorem test_decode_getc : decode 0b1111_0000_00100000#16 = .getc := by decide
theorem test_decode_out : decode 0b1111_0001_00100001#16 = .out := by decide
theorem test_decode_puts : decode 0b1111_0000_00100010#16 = .puts := by decide
theorem test_decode_in : decode 0b1111_0000_00100011#16 = .in_ := by decide
theorem test_decode_putsp : decode 0b1111_0000_00100100#16 = .putsp := by decide
theorem test_decode_halt : decode 0b1111_1111_00100101#16 = .halt := by decide
theorem test_decodeTableWord : decodeTableWord 16 0x1042 = some (.addReg 0#3 1#3 2#3) := by decide
/-- The syntax table of R102 with the assembler's ignored bits: words of `95_test_vectors.md`. -/
theorem test_encode_spec_words :
    encode (.notReg 0#3 1#3) = 0x907F#16 ∧ encode (.jmp 7#3) = 0xC1C0#16 ∧ encode (.jsrr 2#3) = 0x4080#16 ∧
    encode (.jsr 4#11) = 0x4804#16 ∧ encode .halt = 0xF025#16 ∧ encode (.br false true false 0x1FD#9) = 0x05FD#16 ∧
    encode (.str 0#3 6#3 0x3F#6) = 0x71BF#16 ∧ encode (.andImm 2#3 3#3 0xF#5) = 0x54EF#16 := by decide

/-! ### Bit fields: S1 of the spec's vectors -/

theorem test_extractUnsigned : extractUnsigned 0xABCD#16 11 9 = .ok 5#16 := by decide
theorem test_extractSigned : extractSigned 0xABCD#16 8 0 = .ok 0xFFCD#16 := by decide

/-! ### One step of every instruction (`95_test_vectors.md` section 2) -/

/-- `BRz #-3` at 0x3005 with Z: 0x3003. -/
theorem test_br_taken :
    nextHas (exec (.br false true false 0x1FD#9) { start 0 with pc := 0x3005#16, flags := flagZ })
      (fun t => t.pc == 0x3003#16) = true := by decide
/-- `BRnzp #5` just after Reset is not taken. -/
theorem test_br_after_reset : nextHas (step (start 0x0E05)) (fun t => t.pc == 0x3001#16) = true := by decide
/-- `ADD R1,R1,R1` of 0x7FFF wraps to 0xFFFE with N. -/
theorem test_addReg_wraps :
    nextHas (step ((start 0x1241).setReg 1#3 0x7FFF#16))
      (fun t => t.reg 1#3 == 0xFFFE#16 && t.flags == flagN && t.word 0xFFFF#16 == 1#16) = true := by decide
/-- The source's example: `ADD R1,R0,#3` of 5 gives 8 with P. -/
theorem test_addImm_source :
    nextHas (step ((start 0x1223).setReg 0#3 5#16))
      (fun t => t.reg 1#3 == 8#16 && t.flags == flagP && t.pc == 0x3001#16) = true := by decide
theorem test_andReg :
    nextHas (step (((start 0x5042).setReg 1#3 0xF0F0#16).setReg 2#3 0xFF00#16))
      (fun t => t.reg 0#3 == 0xF000#16 && t.flags == flagN) = true := by decide
/-- `AND R2,R3,#-16` keeps bits 15:4. -/
theorem test_andImm_sign :
    nextHas (step ((start 0x54F0).setReg 3#3 0xABCD#16))
      (fun t => t.reg 2#3 == 0xABC0#16 && t.flags == flagN) = true := by decide
theorem test_not :
    nextHas (step ((start 0x9B7F).setReg 5#3 0x8000#16))
      (fun t => t.reg 5#3 == 0x7FFF#16 && t.flags == flagP) = true := by decide
/-- `LD R2,#-1` reads itself. -/
theorem test_ld_itself : nextHas (step (start 0x25FF)) (fun t => t.reg 2#3 == 0x25FF#16 && t.flags == flagP) = true := by decide
/-- `LD R2,#2`. -/
theorem test_ld :
    nextHas (step ((start 0x2402).setWord 0x3003#16 0x8001#16))
      (fun t => t.reg 2#3 == 0x8001#16 && t.flags == flagN) = true := by decide
/-- `LDI R0,#1` with its pointer at 0x3002 (C1). -/
theorem test_ldi :
    nextHas (step (((start 0xA001).setWord 0x3002#16 0x4000#16).setWord 0x4000#16 0x1234#16))
      (fun t => t.reg 0#3 == 0x1234#16 && t.flags == flagP) = true := by decide
/-- A status read that finds 0x6B ready: 0x8000, and the character is latched and used up. -/
theorem test_ldi_status_read :
    nextHas (step { ((start 0xA000).setWord 0x3001#16 0xFE00#16).setWord 0xFE02#16 0xEE#16 with input := ⟨[.char 0x6B#8], .silent⟩ })
      (fun t => t.reg 0#3 == 0x8000#16 && t.word 0xFE02#16 == 0x6B#16 && t.input == ⟨[], .silent⟩ && t.flags == flagN) = true := by
  decide
/-- `LDR R0,R1,#-1` of 0 wraps to the counter word, read as the step began. -/
theorem test_ldr_counter :
    nextHas (step ((start 0x607F).setWord 0xFFFF#16 9#16))
      (fun t => t.reg 0#3 == 9#16 && t.word 0xFFFF#16 == 0xA#16) = true := by decide
/-- `LEA R0,#5` at 0x3000 is 0x3006, with P. -/
theorem test_lea_source :
    nextHas (step (start 0xE005)) (fun t => t.reg 0#3 == 0x3006#16 && t.flags == flagP) = true := by decide
/-- `LEA R0,#0` at 0xFFFF: the pc wraps, the word sits in the counter cell. -/
theorem test_lea_wraps :
    nextHas (step (({ start 0 with pc := 0xFFFF#16 }).setWord 0xFFFF#16 0xE000#16))
      (fun t => t.reg 0#3 == 0#16 && t.flags == flagZ && t.pc == 0#16 && t.word 0xFFFF#16 == 0xE001#16) = true := by decide
theorem test_st :
    nextHas (step { (start 0x360F).setReg 3#3 0xBEEF#16 with flags := flagN })
      (fun t => t.word 0x3010#16 == 0xBEEF#16 && t.flags == flagN) = true := by decide
theorem test_sti :
    nextHas (step (((start 0xB204).setReg 1#3 0xAA#16).setWord 0x3005#16 0x5000#16))
      (fun t => t.word 0x5000#16 == 0xAA#16 && t.word 0x3005#16 == 0x5000#16) = true := by decide
/-- `STR R1,R2,#0` to the counter: store, then increment. -/
theorem test_str_counter :
    nextHas (step (((start 0x7280).setReg 2#3 0xFFFF#16).setReg 1#3 0x100#16))
      (fun t => t.word 0xFFFF#16 == 0x101#16) = true := by decide
theorem test_str :
    nextHas (step (((start 0x71BF).setReg 6#3 0x4000#16).setReg 0#3 7#16))
      (fun t => t.word 0x3FFF#16 == 7#16) = true := by decide
theorem test_jmp_ignored_bits :
    nextHas (step ((start 0xCEBF).setReg 2#3 0x4000#16)) (fun t => t.pc == 0x4000#16) = true := by decide
/-- `JSR #-1024`. -/
theorem test_jsr :
    nextHas (step (start 0x4C00)) (fun t => t.reg 7#3 == 0x3001#16 && t.pc == 0x2C01#16) = true := by decide
/-- `JSRR R7` falls through. -/
theorem test_jsrr_r7 :
    nextHas (step ((start 0x41C0).setReg 7#3 0x5000#16))
      (fun t => t.reg 7#3 == 0x3001#16 && t.pc == 0x3001#16) = true := by decide
theorem test_jsrr :
    nextHas (step ((start 0x4080).setReg 2#3 0x5000#16))
      (fun t => t.reg 7#3 == 0x3001#16 && t.pc == 0x5000#16) = true := by decide
theorem test_rti :
    nextHas (step { start 0x8ABC with flags := flagP })
      (fun t => t.pc == 0x3001#16 && t.flags == flagP && t.word 0xFFFF#16 == 1#16) = true := by decide
theorem test_res :
    nextHas (step { start 0xD000 with flags := flagZ })
      (fun t => t.pc == 0x3001#16 && t.flags == flagZ && t.word 0xFFFF#16 == 1#16) = true := by decide
/-- GETC: `x[0]` wholly replaced, flags untouched, no output. -/
theorem test_getc :
    nextHas (step { (start 0xF020).setReg 0#3 0xFFFF#16 with flags := flagN, input := ⟨[.notReady, .char 0x41#8], .silent⟩ })
      (fun t => t.reg 0#3 == 0x41#16 && t.flags == flagN && t.output == [] && t.pc == 0x3001#16 && t.input == ⟨[], .silent⟩) = true := by
  decide
/-- GETC without input: the step is held at the TRAP and not counted. -/
theorem test_getc_held :
    nextHas (step (start 0xF020))
      (fun t => t.waiting == some (.read .getc) && t.pc == 0x3000#16 && t.word 0xFFFF#16 == 0#16 && statusOf t == none) = true := by
  decide
theorem test_out :
    nextHas (step ((start 0xF021).setReg 0#3 0x1248#16)) (fun t => t.output == [0x48#8] && t.reg 0#3 == 0x1248#16) = true := by
  decide
/-- PUTS: a word 0x0100 writes the character 0x00 and goes on. -/
theorem test_puts :
    nextHas (step ((((start 0xF022).setReg 0#3 0x4000#16).setWord 0x4000#16 0x100#16).setWord 0x4001#16 0x41#16))
      (fun t => t.output == [0#8, 0x41#8] && t.reg 0#3 == 0x4000#16 && t.pc == 0x3001#16) = true := by decide
/-- PUTS across the top of memory reads the counter word and wraps. -/
theorem test_puts_wraps :
    nextHas (step (((((start 0xF022).setReg 0#3 0xFFFE#16).setWord 0xFFFE#16 0x41#16).setWord 0xFFFF#16 0x42#16).setWord 0#16 0x43#16))
      (fun t => t.output == [0x41#8, 0x42#8, 0x43#8] && t.word 0xFFFF#16 == 0x43#16) = true := by decide
/-- IN: the 19 prompt characters, then the echo. -/
theorem test_in :
    nextHas (step { (start 0xF023).setReg 0#3 0x1111#16 with input := ⟨[.char 0x7A#8], .silent⟩ })
      (fun t => t.output == Config.defaultInPrompt ++ [0x7A#8] && t.output.length == 20 && t.reg 0#3 == 0x7A#16) = true := by
  decide
/-- IN that waited: the character completes it with the echo and no second prompt. -/
theorem test_in_resumed :
    nextHas (step { start 0xF023 with waiting := some (.read .in_), runState := .running, input := ⟨[.char 0x7A#8], .silent⟩ })
      (fun t => t.output == [0x7A#8] && t.reg 0#3 == 0x7A#16 && t.waiting == none && t.pc == 0x3001#16 &&
        t.word 0xFFFF#16 == 1#16) = true := by decide
/-- PUTSP: "Hel", ended by the zero high byte. -/
theorem test_putsp :
    nextHas (step ((((start 0xF024).setReg 0#3 0x4000#16).setWord 0x4000#16 0x6548#16).setWord 0x4001#16 0x6C#16))
      (fun t => t.output == [0x48#8, 0x65#8, 0x6C#8]) = true := by decide
/-- PUTSP: a zero low byte ends it with nothing written. -/
theorem test_putsp_zero_low :
    nextHas (step ((((start 0xF024).setReg 0#3 0x4000#16).setWord 0x4000#16 0x4100#16).setWord 0x4001#16 0x4242#16))
      (fun t => t.output == []) = true := by decide
theorem test_halt :
    nextHas (step (start 0xFF25))
      (fun t => statusOf t == some .halted && t.pc == 0x3001#16 && t.word 0xFFFF#16 == 1#16 && t.fault == none) = true := by
  decide
/-- `TRAP xFF`: latched, stopped, pc and counter left. -/
theorem test_trap_unknown :
    nextHas (step (start 0xF0FF))
      (fun t => statusOf t == some (.fatal ⟨0xFF#8, 0x3000#16, 0xF0FF#16⟩) && t.pc == 0x3000#16 &&
        t.word 0xFFFF#16 == 0#16 && t.runState == .stopped) = true := by decide
/-- A Step after the fatal one changes nothing. -/
theorem test_trap_sticky :
    nextHas (step { start 0x1021 with fault := some ⟨0xFF#8, 0x3000#16, 0xF0FF#16⟩, runState := .stopped })
      (fun t => t == { start 0x1021 with fault := some ⟨0xFF#8, 0x3000#16, 0xF0FF#16⟩, runState := .stopped }) = true := by
  decide

/-! ### Host operations -/

theorem test_run_without_image : hostRun 5 State.reset = .done .missingProgram State.reset := by decide
/-- A string walk that a step has left open goes on at its address, and the step then counts. -/
theorem test_walk_resumed :
    nextHas (step { (start 0xF022).setWord 0x4001#16 0x41#16 with waiting := some (.puts 0x4001#16), runState := .running })
      (fun t => t.output == [0x41#8] && t.waiting == none && t.pc == 0x3001#16 && t.word 0xFFFF#16 == 1#16) = true := by
  decide
theorem test_step_without_image : step State.reset = .refused .stepBeforeLoadImage := rfl

/-! ### Witnesses: the hypotheses of every statement are met together -/

/-- A machine that waits in IN, with a character at last. -/
def waitingIn : State :=
  { start 0xF023 with waiting := some (.read .in_), runState := .running, input := ⟨[.notReady, .char 0x7A#8], .silent⟩ }

/-- A machine with the string "Hi" at 0x4000, for PUTS and, packed, for PUTSP at 0x5000. -/
def withStrings (w : Nat) (a : Word) : State :=
  ((((start w).setReg 0#3 a).setWord 0x4000#16 0x48#16).setWord 0x4001#16 0x69#16).setWord 0x5000#16 0x6948#16

theorem witness_UnsignedFieldValue : (0 : Nat) ≤ 15 ∧ (15 : Nat) ≤ 15 ∧ (15 : Nat) ≤ 15 := by decide
theorem witness_SignedFieldValue : (0 : Nat) ≤ 15 ∧ (15 : Nat) ≤ 15 := by decide
theorem witness_InvalidFieldRequestExactly :
    extractUnsigned 0#16 3 4 = .error .invalidFieldRequest ∧ extractSigned 0#16 16 0 = .error .invalidFieldRequest := by
  decide
theorem witness_DecodeEncodeRoundTrip :
    (Instr.trap 0xF#4 0x26#8).wellFormed = true ∧ (Instr.br true true true 0x100#9).wellFormed = true := by decide
theorem witness_MemReadEverywhere :
    (0xFE01#16 : Word) ≠ 0xFE00#16 ∧ ((start 0).input.listed = [] ∧ (start 0).input.tail = .silent) ∧
    ({ start 0 with input := ⟨[.notReady], .silent⟩ } : State).input.listed = .notReady :: [] ∧
    ({ start 0 with input := ⟨[.char 1#8], .silent⟩ } : State).input.next = some (.char 1#8, ⟨[], .silent⟩) ∧
    ({ start 0 with input := ⟨[], .repeating 1#8 [2#8] 3⟩ } : State).input.next =
      some (.char 2#8, ⟨[], .repeating 1#8 [2#8] 4⟩) := by decide
theorem witness_UnknownVectorLatchesFault :
    ((0x1F#8 : BitVec 8).toNat < 0x20 ∨ 0x25 < (0x1F#8 : BitVec 8).toNat) ∧
    ((0x26#8 : BitVec 8).toNat < 0x20 ∨ 0x25 < (0x26#8 : BitVec 8).toNat) := by decide
theorem witness_GetcReadsCharacter :
    NextCharIs { start 0 with input := ⟨[.notReady, .char 0x41#8], .silent⟩ } 0x41#8 ⟨[], .silent⟩ ∧
    NextCharIs { start 0 with input := ⟨[.notReady], .repeating 0x41#8 [] 0⟩ } 0x41#8 ⟨[], .repeating 0x41#8 [] 1⟩ :=
  ⟨⟨1, .inl ⟨[], rfl, rfl⟩⟩, 1, .inr ⟨rfl, _, rfl, rfl⟩⟩
theorem witness_InPromptsReadsEchoes :
    NextCharIs { start 0 with input := ⟨[.char 0x7A#8, .notReady], .silent⟩ } 0x7A#8 ⟨[.notReady], .silent⟩ :=
  ⟨0, .inl ⟨_, rfl, rfl⟩⟩
theorem witness_BlockedReadHolds :
    NoCharComes { start 0 with input := ⟨[.notReady], .silent⟩ } ∧
    (({ waitingIn with input := ⟨[], .silent⟩ } : State).waiting = some (.read .in_) ∧
      ({ waitingIn with input := ⟨[], .silent⟩ } : State).fault = none ∧
      NoCharComes { waitingIn with input := ⟨[], .silent⟩ }) := by
  refine ⟨?_, rfl, rfl, ?_⟩ <;> simp [NoCharComes]
theorem witness_DeliveryCompletesBlockedRead :
    waitingIn.waiting = some (.read .in_) ∧ waitingIn.fault = none ∧ NextCharIs waitingIn 0x7A#8 ⟨[], .silent⟩ :=
  ⟨rfl, rfl, 1, .inl ⟨[], rfl, rfl⟩⟩
theorem storedAt_nil (s : State) (a : Word) : StoredAt s a [] := fun _ h => absurd h (Nat.not_lt_zero _)
theorem storedAt_cons {s : State} {a w : Word} {ws : List Word} (hk : a ≠ kbsrAddr) (hw : s.word a = w)
    (h : StoredAt s (a + 1#16) ws) : StoredAt s a (w :: ws) := by
  intro k hk'
  cases k with
  | zero => simpa using ⟨hk, hw⟩
  | succ k =>
    have := h k (by simpa using hk')
    rwa [BitVec.add_assoc, BitVec.add_comm 1#16, ← BitVec.ofNat_add] at this
theorem strings_reg (w : Nat) (a : Word) : (withStrings w a).reg 0#3 = a := by
  simp [withStrings]
theorem witness_PutsWritesString :
    StoredAt (withStrings 0xF022 0x4000#16) ((withStrings 0xF022 0x4000#16).reg 0#3) ([0x48#16, 0x69#16] ++ [0#16]) ∧
    ∀ w ∈ [0x48#16, 0x69#16], w ≠ 0#16 := by
  rw [strings_reg]
  exact ⟨storedAt_cons (by decide) (by decide) (storedAt_cons (by decide) (by decide)
    (storedAt_cons (by decide) (by decide) (storedAt_nil _ _))), by simp⟩
/-- A loaded image with PUTS at 0x3000, no zero word anywhere, and an input that gives the character 1 for ever. -/
def endless : State :=
  { State.reset with
    mem := Memory.ofImage fun a => if a = 0x3000#16 then 0xF022#16 else 1#16
    loaded := true
    input := ⟨[], .repeating 1#8 [] 0⟩ }
theorem endless_word (a : Word) : endless.word a = if a = 0x3000#16 then 0xF022#16 else 1#16 :=
  Memory.read_ofImage _ a
theorem endless_fetch : fetch (beginStep endless) = (0xF022#16, beginStep endless) := by
  rw [fetch, memRead_plain _ (by decide : (beginStep endless).pc ≠ kbsrAddr)]
  exact Prod.ext (endless_word _) rfl
theorem repeating_after (k n : Nat) :
    (⟨[], .repeating 1#8 [] n⟩ : InputSource).after k = ⟨[], .repeating 1#8 [] (n + k)⟩ := by
  induction k generalizing n with
  | zero => rfl
  | succ k ih => exact (ih (n + 1)).trans (by rw [Nat.add_right_comm, Nat.add_assoc])
/-- The hypotheses of each clause: finite input, a suspended walk, and a PUTS that runs for ever (R216). -/
theorem witness_PutsRunsItsLoop :
    (start 0xF022).input.tail = .silent ∧
    (({ endless with waiting := some (.puts 0#16) } : State).fault = none ∧
      ({ endless with waiting := some (.puts 0#16) } : State).waiting = some (.puts 0#16)) ∧
    (Ready endless ∧ decode (fetch (beginStep endless)).1 = .puts ∧
      (fetch (beginStep endless)).2.input.NeverEnds ∧
      ∀ a, a ≠ 0xFE00#16 → (fetch (beginStep endless)).2.word a ≠ 0#16) := by
  rw [endless_fetch]
  refine ⟨rfl, ⟨rfl, rfl⟩, ⟨rfl, rfl, rfl⟩, by decide, fun k => ?_, fun a _ => ?_⟩
  · refine ⟨1#8, ⟨[], .repeating 1#8 [] (k + 1)⟩, ?_, by decide⟩
    show ((⟨[], .repeating 1#8 [] 0⟩ : InputSource).after k).next = _
    rw [repeating_after]
    simp [InputSource.next, InputTail.next, Nat.mod_one]
  · show endless.word a ≠ 0#16
    rw [endless_word]
    split <;> decide
theorem witness_PutspWritesString :
    (StoredAt (withStrings 0xF024 0x5000#16) ((withStrings 0xF024 0x5000#16).reg 0#3) ([0x6948#16] ++ [0#16]) ∧
      (∀ w ∈ [0x6948#16], w.extractLsb 7 0 ≠ 0#8 ∧ w.extractLsb 15 8 ≠ 0#8) ∧
      (0#16 : Word).extractLsb 7 0 = 0#8) ∧
    (StoredAt (withStrings 0xF024 0x4000#16) ((withStrings 0xF024 0x4000#16).reg 0#3) ([] ++ [0x48#16]) ∧
      (0x48#16 : Word).extractLsb 15 8 = 0#8) := by
  rw [strings_reg, strings_reg]
  exact ⟨⟨storedAt_cons (by decide) (by decide) (storedAt_cons (by decide) (by decide) (storedAt_nil _ _)),
    by simp, by decide⟩, storedAt_cons (by decide) (by decide) (storedAt_nil _ _), by decide⟩
theorem witness_StepRunsDecodedInstruction :
    Ready (start 0x1021) ∧
    decode (memRead (start 0x1021).pc { start 0x1021 with runState := .running }).1 = .addImm 0#3 0#3 1#5 :=
  ⟨⟨rfl, rfl, rfl⟩, by decide⟩
theorem witness_CounterCountsCompletedSteps :
    (∃ u, exec (decode (fetch (beginStep (start 0x1021))).1) (fetch (beginStep (start 0x1021))).2 = .next u ∧ Completed u) ∧
    (∃ u, exec (decode (fetch (beginStep (start 0xF0FF))).1) (fetch (beginStep (start 0xF0FF))).2 = .next u ∧ ¬ Completed u) ∧
    Ready (start 0x1021) ∧ Ready (start 0xF0FF) := by
  have h₁ := next_of_nextHas (o := exec (decode (fetch (beginStep (start 0x1021))).1) (fetch (beginStep (start 0x1021))).2)
    (test := fun u => u.fault == none && u.waiting == none) (by decide)
  have h₂ := next_of_nextHas (o := exec (decode (fetch (beginStep (start 0xF0FF))).1) (fetch (beginStep (start 0xF0FF))).2)
    (test := fun u => u.fault != none) (by decide)
  exact ⟨h₁.imp fun _ h => ⟨h.1, by simpa [Completed] using h.2⟩,
    h₂.imp fun _ h => ⟨h.1, fun c => by simp [c.1] at h⟩, ⟨rfl, rfl, rfl⟩, ⟨rfl, rfl, rfl⟩⟩
theorem witness_FatalStepState :
    Ready (start 0xF01F) ∧ ((0x1F#8 : BitVec 8).toNat < 0x20 ∨ 0x25 < (0x1F#8 : BitVec 8).toNat) ∧
    (fetch (beginStep (start 0xF01F))).1 = 0xF#4 ++ 0#4 ++ 0x1F#8 := ⟨⟨rfl, rfl, rfl⟩, by decide, by decide⟩
theorem witness_LatchedFaultIsSticky :
    ({ start 0 with fault := some ⟨0xFF#8, 0x3000#16, 0xF0FF#16⟩ } : State).fault = some ⟨0xFF#8, 0x3000#16, 0xF0FF#16⟩ ∧
    ({ start 0 with fault := some ⟨0xFF#8, 0x3000#16, 0xF0FF#16⟩ } : State).waiting = none ∧
    ({ start 0 with fault := some ⟨0xFF#8, 0x3000#16, 0xF0FF#16⟩ } : State).loaded = true := ⟨rfl, rfl, rfl⟩
theorem witness_StepStatus :
    (∃ t, step (start 0xF025) = .next t ∧ t.waiting = none ∧ t.fault = none) ∧
    (∃ t, step (start 0xF026) = .next t ∧ t.waiting = none ∧ t.fault.isSome = true) ∧
    Ready (start 0xF025) ∧ Ready (start 0xF026) :=
  ⟨(next_of_nextHas (test := fun u => u.waiting = none ∧ u.fault = none) (by decide)).imp fun _ h =>
      ⟨h.1, of_decide_eq_true h.2⟩,
    (next_of_nextHas (test := fun u => u.waiting = none ∧ u.fault.isSome = true) (by decide)).imp fun _ h =>
      ⟨h.1, of_decide_eq_true h.2⟩,
    ⟨rfl, rfl, rfl⟩, ⟨rfl, rfl, rfl⟩⟩
theorem witness_UnloadedMachine :
    State.reset.loaded = false ∧ State.reset.waiting = none ∧ State.reset.fault = none := ⟨rfl, rfl, rfl⟩
theorem witness_LoadImageStoresArray : State.reset.waiting = none := rfl
theorem witness_ResetOperation : (start 0x1021).waiting = none := rfl
theorem witness_FlagWriters :
    (∃ t, exec (.ldi 1#3 0#9) (start 0) = .next t) ∧ (Instr.ldi 1#3 0#9).setsFlags = true ∧
    (∃ t, exec .out (start 0) = .next t) ∧ Instr.out.setsFlags = false := ⟨⟨_, rfl⟩, rfl, ⟨_, rfl⟩, rfl⟩
theorem witness_RegisterWriters :
    (∃ t, exec (.jsrr 7#3) (start 0) = .next t) ∧ (Instr.jsrr 7#3).destReg ≠ some 6#3 := ⟨⟨_, rfl⟩, by decide⟩
theorem witness_MemoryWriters :
    (∃ t, exec (.sti 1#3 0#9) (start 0) = .next t ∧ t.input = (start 0).input) ∧ (0xFE01#16 : Word) ≠ 0xFE02#16 ∧
    (Instr.sti 1#3 0#9).storesTo (start 0) ≠ some 0xFE01#16 ∧
    (Instr.sti 1#3 0#9).storesTo (start 0) ≠ some 0xFE02#16 := ⟨⟨_, rfl, rfl⟩, by decide, by decide, by decide⟩
theorem witness_PcOverride :
    Completed (start 0) ∧ Instr.halt.overridesPc = false ∧ Instr.getc.overridesPc = false ∧
    (∃ t, exec .halt (start 0) = .next t ∧ Completed t) ∧ ∃ t, exec .getc (start 0) = .next t ∧ ¬ Completed t :=
  ⟨⟨rfl, rfl⟩, rfl, rfl, ⟨_, rfl, rfl, rfl⟩, _, rfl, fun h => nomatch h.2⟩
theorem witness_OnlyTrapRaises :
    (start 0).fault = none ∧ (∃ t, exec (.trap 0#4 0x26#8) (start 0) = .next t ∧ t.fault.isSome = true) ∧
    ∃ t, exec (.trap 0#4 0x25#8) (start 0) = .next t ∧ t.fault = none := ⟨rfl, ⟨_, rfl, rfl⟩, _, rfl, rfl⟩
theorem witness_PortsMoveForward : ∃ t, step (start 0xF021) = .next t ∧ t.output = [0#8] := ⟨_, rfl, rfl⟩
theorem witness_NextFetchSeesStore :
    Ready (start 0x3000) ∧ decode (fetch (beginStep (start 0x3000))).1 = .st 0#3 0#9 ∧
    (start 0x3000).pc + 1#16 ≠ 0xFE00#16 ∧ (start 0x3000).pc + 1#16 ≠ 0xFFFF#16 ∧ ∃ t, step (start 0x3000) = .next t :=
  ⟨⟨rfl, rfl, rfl⟩, by decide, by decide, by decide, _, rfl⟩
/-- `LDR R0,R1,#0` and `STR R0,R1,#0` with R1 = 0xFFFF; `LD R0,#-1` and `ST R0,#-1` at 0xFFFF itself. -/
theorem witness_CounterLoadAndStore :
    (Ready ((start 0x6040).setReg 1#3 0xFFFF#16) ∧
      decode (fetch (beginStep ((start 0x6040).setReg 1#3 0xFFFF#16))).1 = .ldr 0#3 1#3 0#6 ∧
      ((start 0x6040).setReg 1#3 0xFFFF#16).reg 1#3 + sext 0#6 = 0xFFFF#16) ∧
    (Ready ((start 0x7040).setReg 1#3 0xFFFF#16) ∧
      decode (fetch (beginStep ((start 0x7040).setReg 1#3 0xFFFF#16))).1 = .str 0#3 1#3 0#6 ∧
      ((start 0x7040).setReg 1#3 0xFFFF#16).reg 1#3 + sext 0#6 = 0xFFFF#16) ∧
    (Ready (({ start 0 with pc := 0xFFFF#16 }).setWord 0xFFFF#16 0x21FF#16) ∧
      decode (fetch (beginStep (({ start 0 with pc := 0xFFFF#16 }).setWord 0xFFFF#16 0x21FF#16))).1 = .ld 0#3 0x1FF#9) ∧
    (Ready (({ start 0 with pc := 0xFFFF#16 }).setWord 0xFFFF#16 0x31FF#16) ∧
      decode (fetch (beginStep (({ start 0 with pc := 0xFFFF#16 }).setWord 0xFFFF#16 0x31FF#16))).1 = .st 0#3 0x1FF#9) ∧
    (0xFFFF#16 : Word) + 1#16 + sext 0x1FF#9 = 0xFFFF#16 :=
  ⟨⟨⟨rfl, rfl, rfl⟩, by decide, by decide⟩, ⟨⟨rfl, rfl, rfl⟩, by decide, by decide⟩, ⟨⟨rfl, rfl, rfl⟩, by decide⟩,
    ⟨⟨rfl, rfl, rfl⟩, by decide⟩, by decide⟩
theorem witness_LoadedStepAlwaysAnswers : (start 0xF022).loaded = true := rfl
/-- A state in the middle of a run: running, a word stored, flags N, an instruction to come. -/
theorem witness_StepKeepsInvariant :
    State.Inv { start 0x1021 with flags := flagN, runState := .running } ∧
    ∃ t, step { start 0x1021 with flags := flagN, runState := .running } = .next t :=
  ⟨⟨by decide, .inr (.inl rfl), nofun, nofun, nofun⟩, _, rfl⟩
theorem witness_HostOperationsKeepInvariant :
    State.Inv (start 0x1021) ∧ (∃ t, loadImage (fun a => a) (start 0x1021) = .next t) ∧
    (∃ t, hostReset (start 0x1021) = .next t) ∧ flagZ.Legal :=
  ⟨⟨by decide, .inl rfl, nofun, nofun, nofun⟩, ⟨_, rfl⟩, ⟨_, rfl⟩,
    .inr (.inr (.inl rfl))⟩

end Sys2Proof.Tests
end

section
/-! SUPPORT and PROOFS of the bit-field statements (`00_scope.md`, R6, R7, R11, R213): what the two extraction
functions answer on a valid and on an invalid request, and the value of a sign-extended field. -/

namespace Sys2Proof

open Sys2Proof.Machine

/-! ### Valid and invalid requests -/

theorem validField_iff {hi lo : Nat} : validField hi lo = true ↔ lo ≤ hi ∧ hi ≤ 15 := by
  simp [validField]

theorem extractUnsigned_of_valid (w : Word) {hi lo : Nat} (hlo : lo ≤ hi) (hhi : hi ≤ 15) :
    extractUnsigned w hi lo = .ok ((bits w hi lo).setWidth 16) :=
  if_pos (validField_iff.2 ⟨hlo, hhi⟩)

theorem extractSigned_of_valid (w : Word) {hi lo : Nat} (hlo : lo ≤ hi) (hhi : hi ≤ 15) :
    extractSigned w hi lo = .ok (sext (bits w hi lo)) :=
  if_pos (validField_iff.2 ⟨hlo, hhi⟩)

theorem extractUnsigned_eq_error_iff {w : Word} {hi lo : Nat} {e : FieldError} :
    extractUnsigned w hi lo = .error e ↔ ¬ (lo ≤ hi ∧ hi ≤ 15) := by
  rw [← validField_iff]
  by_cases h : validField hi lo <;> simp [extractUnsigned, h]

theorem extractSigned_eq_error_iff {w : Word} {hi lo : Nat} {e : FieldError} :
    extractSigned w hi lo = .error e ↔ ¬ (lo ≤ hi ∧ hi ≤ 15) := by
  rw [← validField_iff]
  by_cases h : validField hi lo <;> simp [extractSigned, h]

/-! ### The unsigned value of a field -/

/-- A field of valid positions is at most a word wide, so widening it to a word keeps its value (R6). -/
theorem setWidth_bits_toNat (w : Word) {hi : Nat} (lo : Nat) (hhi : hi ≤ 15) :
    ((bits w hi lo).setWidth 16).toNat = w.toNat / 2 ^ lo % 2 ^ (hi - lo + 1) := by
  rw [BitVec.toNat_setWidth_of_le (by omega), bits_toNat]

theorem bit_eq_true_iff (w : Word) (i : Nat) : bit w i = true ↔ w.toNat / 2 ^ i % 2 = 1 := by
  simp [bit, BitVec.getLsbD, Nat.testBit_eq_decide_div_mod_eq]

/-! ### The value of a sign-extended field -/

/-- R7: the top bit of a field of `k + 1` bits is 0 exactly when the field is below `2 ^ k`. -/
theorem Machine.sext_toNat {k : Nat} (f : BitVec (k + 1)) (hk : k + 1 ≤ 16) :
    (sext f).toNat = if f.toNat < 2 ^ k then f.toNat else f.toNat + (2 ^ 16 - 2 ^ (k + 1)) := by
  have hmsb : f.msb = !decide (f.toNat < 2 ^ k) := by
    simp [BitVec.msb_eq_decide, ← decide_not]
  rw [sext, BitVec.toNat_signExtend, BitVec.toNat_setWidth_of_le hk, hmsb]
  by_cases h : f.toNat < 2 ^ k <;> simp [h]

theorem Machine.sext_toInt {n : Nat} (f : BitVec n) (hn : n ≤ 16) : (sext f).toInt = f.toInt :=
  BitVec.toInt_signExtend_of_le hn

/-- A sign-extended field has the range of an n-bit two's-complement number (R7, R93). -/
theorem Machine.sext_range {n : Nat} (f : BitVec n) (hn : n ≤ 16) :
    -2 ^ (n - 1) ≤ (sext f).toInt ∧ (sext f).toInt ≤ 2 ^ (n - 1) - 1 ∧ (sext f).toInt = f.toInt := by
  rw [sext_toInt f hn]
  exact ⟨f.le_toInt, Int.le_sub_one_of_lt f.toInt_lt, rfl⟩

/-! ### The statements -/

/-- Settles O1: a valid request answers the field widened to a word, and a field of one bit is 1 exactly when
that bit is set. -/
theorem unsignedFieldValue : Obligations.UnsignedFieldValue := by
  constructor
  · intro w hi lo hlo hhi
    have hv := setWidth_bits_toNat w lo hhi
    exact ⟨_, extractUnsigned_of_valid w hlo hhi, hv, hv ▸ Nat.mod_lt _ (Nat.two_pow_pos _)⟩
  · intro w i hi
    refine ⟨_, extractUnsigned_of_valid w le_rfl hi, ?_⟩
    rw [bit_eq_true_iff, ← BitVec.toNat_inj, setWidth_bits_toNat w i hi]
    simp

/-- Settles O2: the field is sign-extended from its own top bit, and `sext` keeps the signed value of every field
no wider than a word. -/
theorem signedFieldValue : Obligations.SignedFieldValue := by
  refine ⟨fun w hi lo hlo hhi => ⟨_, extractSigned_of_valid w hlo hhi, ?_⟩, fun f => ?_, fun f => ?_,
    fun f => ?_, fun f => ?_⟩
  · rw [sext_toNat _ (by omega), bits_toNat]
  all_goals exact sext_range f (by decide)

/-- Settles O3: both functions fail exactly on the requests that are not valid; `15 < lo` makes one of the other
two conditions true. -/
theorem invalidFieldRequestExactly : Obligations.InvalidFieldRequestExactly := by
  intro w hi lo
  rw [extractUnsigned_eq_error_iff, extractSigned_eq_error_iff]
  omega

end Sys2Proof
end

section
/-! SUPPORT. Everything an instruction can do, said once: the one inversion lemma from which the rules of the whole
machine follow. A plain trap term with a service vector is first turned into its service. -/

namespace Sys2Proof

open Sys2Proof.Machine

/-! ### The constructor a trap term stands for -/

/-- The instruction with a plain trap term that names a service turned into that service's own constructor: the form
in which the decoder answers (R103, R180; log entry 11). -/
def Instr.canonical : Instr → Instr
  | .trap ign vec => decodeTrap ign vec
  | i => i

/-- A vector either names no service, and the trap term stays as it is, or is one of the six. -/
theorem decodeTrap_cases (ign : BitVec 4) (vec : BitVec 8) :
    (vec ∉ serviceVectors ∧ decodeTrap ign vec = .trap ign vec) ∨
    vec = vecGetc ∨ vec = vecOut ∨ vec = vecPuts ∨ vec = vecIn ∨ vec = vecPutsp ∨ vec = vecHalt := by
  by_cases h : vec ∈ serviceVectors
  · simpa [serviceVectors] using Or.inr h
  · exact .inl ⟨h, decodeTrap_of_not_service ign (by simpa using h)⟩

/-- What is said of every instruction, and of a trap term as of the service it names, is not changed by
`canonical`. -/
theorem Instr.canonical_eq {α : Sort*} (f : Instr → α)
    (hf : ∀ ign, f .getc = f (.trap ign vecGetc) ∧ f .out = f (.trap ign vecOut) ∧ f .puts = f (.trap ign vecPuts) ∧
      f .in_ = f (.trap ign vecIn) ∧ f .putsp = f (.trap ign vecPutsp) ∧ f .halt = f (.trap ign vecHalt))
    (i : Instr) : f i.canonical = f i := by
  cases i with
  | trap ign vec =>
    obtain ⟨hg, ho, hp, hi, hs, hh⟩ := hf ign
    rcases decodeTrap_cases ign vec with ⟨-, h⟩ | rfl | rfl | rfl | rfl | rfl | rfl
    · exact congrArg f h
    all_goals assumption
  | _ => rfl

@[simp] theorem Instr.setsFlags_canonical (i : Instr) : i.canonical.setsFlags = i.setsFlags :=
  canonical_eq Instr.setsFlags (fun _ => ⟨rfl, rfl, rfl, rfl, rfl, rfl⟩) i

@[simp] theorem Instr.destReg_canonical (i : Instr) : i.canonical.destReg = i.destReg :=
  canonical_eq Instr.destReg (fun _ => ⟨rfl, rfl, rfl, rfl, rfl, rfl⟩) i

@[simp] theorem Instr.overridesPc_canonical (i : Instr) : i.canonical.overridesPc = i.overridesPc :=
  canonical_eq Instr.overridesPc (fun _ => ⟨rfl, rfl, rfl, rfl, rfl, rfl⟩) i

@[simp] theorem Machine.exec_canonical (i : Instr) : exec i.canonical = exec i :=
  i.canonical_eq exec fun _ => ⟨rfl, rfl, rfl, rfl, rfl, rfl⟩

theorem Instr.canonical_wellFormed (i : Instr) : i.canonical.wellFormed = true := by
  cases i with
  | trap ign vec =>
    rcases decodeTrap_cases ign vec with ⟨hv, h⟩ | rfl | rfl | rfl | rfl | rfl | rfl
    · simpa [canonical, h, wellFormed] using hv
    all_goals rfl
  | _ => rfl

theorem Instr.canonical_of_wellFormed {i : Instr} (h : i.wellFormed = true) : i.canonical = i := by
  cases i with
  | trap ign vec => exact decodeTrap_of_not_service ign (by simpa [wellFormed] using h)
  | _ => rfl

/-- What is decoded is in canonical form (R105). -/
theorem decode_wellFormed (w : Word) : (decode w).wellFormed = true := by
  unfold decode
  split
  case h_16 => exact Instr.canonical_wellFormed (.trap _ _)
  case h_2 | h_5 | h_6 => split <;> rfl
  all_goals rfl

end Sys2Proof

namespace Sys2Proof.Machine

/-! ### Reads and walks -/

theorem Walked.reg {s u : State} (h : Walked s u) (r : RegNum) : u.reg r = s.reg r := by
  simp [State.reg, h.regs]

theorem Walked.npc {s u : State} (h : Walked s u) : u.npc = s.npc := by
  simp [State.npc, h.pc]

theorem Walked.memRead (a : Word) (s : State) : Walked s (memRead a s).2 := by
  simpa only [outWriteAll_nil] using Walked.word_read a s []

theorem Walked.outWriteAll (cs : List Character) (s : State) : Walked s (outWriteAll cs s) :=
  { Walked.refl s with output := List.prefix_append _ _ }

/-- The answers that `InRead()` takes from the input are used up from the front, and nothing else changes. -/
theorem Walked.readInput {s : State} {c : Character} {rest : InputSource} (h : NextCharIs s c rest) :
    Walked s { s with input := rest } :=
  { Walked.refl s with input := h.usedTo, latch := fun _ => rfl }

theorem Walked.withWaiting {s u : State} (h : Walked s u) (w : Option Suspended) :
    Walked { s with waiting := w } { u with waiting := w } :=
  { h with waiting := rfl }

theorem Walked.completed {s u : State} (h : Walked s u) (hs : Completed s) : Completed u :=
  ⟨h.fault.trans hs.1, h.waiting.trans hs.2⟩

/-! ### Everything an instruction can do -/

/-- What `exec` can answer in the state `s`, for an instruction in canonical form; `u` is the state after the reads and
the output the instruction does. -/
inductive Executed (i : Instr) (s : State) : State → Prop where
  /-- A setting operation has put its result in `x[DR]` and its sign in the flags (R29). -/
  | result (dr : RegNum) (v : Word) (u : State) (walk : Walked s u) (sets : i.setsFlags = true)
      (dest : i.destReg = some dr) : Executed i s (advance (writeResult dr v u))
  /-- A store has written its word (R53). -/
  | stored (ea v : Word) (u : State) (walk : Walked s u) (stores : i.storesTo s = some ea) :
      Executed i s (advance (memWrite ea v u))
  /-- Nothing but the commit: the placeholders, and the output services at their end. -/
  | advanced (u : State) (walk : Walked s u) : Executed i s (advance u)
  /-- BR and JMP have chosen the next pc (R160, R161). -/
  | jumped (target : Word) (overrides : i.overridesPc = true) : Executed i s (commit target s)
  /-- JSR and JSRR have linked and chosen the next pc (R163, R164). -/
  | linked (target : Word) (overrides : i.overridesPc = true) (dest : i.destReg = some linkReg) :
      Executed i s (commit target (s.setReg linkReg s.npc))
  /-- GETC and IN have read their character (R184, R187). -/
  | characterRead (c : Character) (u : State) (walk : Walked { s with waiting := none } u)
      (dest : i.destReg = some serviceReg) : Executed i s (advance (u.setReg serviceReg (zext c)))
  /-- HALT has stopped the machine (R189). -/
  | halted (isHalt : i = .halt) : Executed i s (advance { s with runState := .stopped })
  /-- A TRAP without a service has taken the fatal path (R118, R190). -/
  | fatal (ign : BitVec 4) (vec : BitVec 8) (isTrap : i = .trap ign vec) (noService : vec ∉ serviceVectors) :
      Executed i s (raiseUnimplementedTrap vec (trapWord ign vec) s)
  /-- A service has not completed (R124, R216). -/
  | suspended (k : Suspended) (u : State) (walk : Walked s u) : Executed i s { u with waiting := some k }

/-- The service that a suspension goes on with. -/
def Suspended.service : Suspended → Instr
  | .read .getc => .getc
  | .read .in_ => .in_
  | .puts _ => .puts
  | .putsp _ => .putsp

/-- A blocking read, after the prompt or without one, holds the step or reads its character. -/
theorem blockingRead_executed (k : BlockedRead) {s u : State} (prompted : Walked s u) :
    Executed (Suspended.read k).service s (blockingRead k u) := by
  rcases blockingRead_cases k u with ⟨-, h⟩ | ⟨c, rest, hc, h⟩ <;> rw [h]
  · exact .suspended _ u prompted
  · have read : Walked { s with waiting := none } { u with input := rest, waiting := none } :=
      (prompted.trans (.readInput hc)).withWaiting none
    cases k with
    | getc => exact .characterRead c _ read rfl
    | in_ => exact .characterRead c _ (read.trans (.outWriteAll [c] _)) rfl

theorem putsFrom_executed (a : Word) (s : State) : Executed .puts s (putsFrom a s) := by
  obtain ⟨u, hu, h | ⟨b, h⟩⟩ := putsLoop_cases (walkBound s) a s <;> rw [putsFrom, h]
  · exact .advanced u hu
  · exact .suspended _ u hu

theorem putspFrom_executed (a : Word) (s : State) : Executed .putsp s (putspFrom a s) := by
  obtain ⟨u, hu, h | ⟨b, h⟩⟩ := putspLoop_cases (walkBound s) a s <;> rw [putspFrom, h]
  · exact .advanced u hu
  · exact .suspended _ u hu

/-- A service that goes on does one of the things it could do when it began. -/
theorem resumeService_executed (k : Suspended) (s : State) :
    Executed k.service { s with waiting := none } (resumeService k s) := by
  cases k with
  | read k => exact (blockingRead_executed k (.refl { s with waiting := none }) :)
  | puts a => exact putsFrom_executed a _
  | putsp a => exact putspFrom_executed a _

/-- The setting operations end with their result written (R18, R29). -/
theorem exec_of_setsFlags {i : Instr} (h : i.setsFlags = true) (s : State) :
    ∃ dr v u, i.destReg = some dr ∧ Walked s u ∧ exec i s = .next (advance (writeResult dr v u)) := by
  cases i with
  | addReg | addImm | andReg | andImm | notReg | lea => exact ⟨_, _, _, rfl, .refl s, rfl⟩
  | ld | ldr => exact ⟨_, _, _, rfl, .memRead _ s, rfl⟩
  | ldi => exact ⟨_, _, _, rfl, (Walked.memRead _ s).trans (.memRead _ _), rfl⟩
  | _ => cases h

theorem exec_trap_of_not_service {ign : BitVec 4} {vec : BitVec 8} (h : vec ∉ serviceVectors) (s : State) :
    exec (.trap ign vec) s = .next (raiseUnimplementedTrap vec (trapWord ign vec) s) := by
  simp only [serviceVectors, List.mem_cons, List.not_mem_nil, or_false, not_or] at h
  simp [exec, execTrap, h]

/-- Every instruction in canonical form answers a next state, in one of the ways of `Executed`. -/
theorem executed_of_wellFormed {i : Instr} {s : State} (hi : i.wellFormed = true) :
    ∃ t, exec i s = .next t ∧ Executed i s t := by
  cases hf : i.setsFlags with
  | true =>
    obtain ⟨dr, v, u, hd, hu, h⟩ := exec_of_setsFlags hf s
    exact ⟨_, h, .result dr v u hu hf hd⟩
  | false =>
    cases i with
    | br | jmp => exact ⟨_, rfl, .jumped _ rfl⟩
    | jsr | jsrr => exact ⟨_, rfl, .linked _ rfl rfl⟩
    | st | str => exact ⟨_, rfl, .stored _ _ _ (.refl s) rfl⟩
    | sti => exact ⟨_, rfl, .stored _ _ _ (.memRead _ s) rfl⟩
    | rti | res => exact ⟨_, rfl, .advanced _ (.refl s)⟩
    | out => exact ⟨_, rfl, .advanced _ (.outWriteAll _ s)⟩
    | getc => exact ⟨_, rfl, blockingRead_executed .getc (.refl s)⟩
    | in_ => exact ⟨_, rfl, blockingRead_executed .in_ (.outWriteAll _ s)⟩
    | puts => exact ⟨_, rfl, putsFrom_executed _ s⟩
    | putsp => exact ⟨_, rfl, putspFrom_executed _ s⟩
    | halt => exact ⟨_, rfl, .halted rfl⟩
    | trap ign vec =>
      have hv : vec ∉ serviceVectors := by simpa [Instr.wellFormed] using hi
      exact ⟨_, exec_trap_of_not_service hv s, .fatal ign vec rfl hv⟩
    | _ => cases hf

/-- The inversion of `exec`: everything an instruction can do. -/
theorem exec_cases {i : Instr} {s t : State} (h : exec i s = .next t) : Executed i.canonical s t := by
  obtain ⟨t', ht', he⟩ := executed_of_wellFormed (s := s) i.canonical_wellFormed
  rw [exec_canonical, h] at ht'
  cases ht'
  exact he

/-- The same of a fetched instruction, which is in canonical form. -/
theorem exec_decode_cases {w : Word} {s t : State} (h : exec (decode w) s = .next t) : Executed (decode w) s t :=
  Instr.canonical_of_wellFormed (decode_wellFormed w) ▸ exec_cases h

/-! ### What every outcome leaves -/

theorem trapWord_lowByte (ign : BitVec 4) (vec : BitVec 8) : lowByte (trapWord ign vec) = vec := by
  apply BitVec.eq_of_getLsbD_eq
  intro k hk
  have append : (trapWord ign vec).getLsbD k = vec.getLsbD k := by
    rw [trapWord, BitVec.getLsbD_append, if_pos hk]
  simp [lowByte, hk, append]

theorem trapWord_opcode (ign : BitVec 4) (vec : BitVec 8) : bits (trapWord ign vec) 15 12 = 0xF#4 := by
  rw [trapWord, BitVec.append_assoc]
  exact bits_opcode 0xF#4 (ign ++ vec)

/-- An instruction begun outside a fault and a suspension runs to its end, takes the fatal path, or is suspended; the
last two keep the pc, and only HALT and the fatal path change RunState. -/
theorem Executed.control {i : Instr} {s t : State} (h : Executed i s t) (hs : Completed s) :
    (Completed t ∧ (i.overridesPc = false → t.pc = s.npc) ∧ (i ≠ .halt → t.runState = s.runState)) ∨
    (t.pc = s.pc ∧ t.waiting = none ∧ t.runState = .stopped ∧ ∃ f, t.fault = some f ∧ FaultRecord t f) ∨
    (t.pc = s.pc ∧ t.waiting.isSome = true ∧ t.runState = s.runState ∧ t.fault = none) := by
  cases h with
  | result _ _ u walk | stored _ _ u walk | advanced u walk =>
    exact .inl ⟨walk.completed hs, fun _ => walk.npc, fun _ => walk.runState⟩
  | characterRead c u walk => exact .inl ⟨walk.completed ⟨hs.1, rfl⟩, fun _ => walk.npc, fun _ => walk.runState⟩
  | jumped _ overrides | linked _ overrides => exact .inl ⟨hs, fun hi => by simp [hi] at overrides, fun _ => rfl⟩
  | halted isHalt => exact .inl ⟨hs, fun _ => rfl, fun hi => absurd isHalt hi⟩
  | fatal ign vec _ noService =>
    exact .inr (.inl ⟨rfl, hs.2, rfl, _, rfl, rfl, (trapWord_lowByte ign vec).symm, trapWord_opcode ign vec,
      noService⟩)
  | suspended k u walk => exact .inr (.inr ⟨walk.pc, rfl, walk.runState, walk.fault.trans hs.1⟩)

theorem flagsOf_legal (v : Word) : (flagsOf v).Legal := .inr (flagsOf_cases v)

theorem Executed.memWf {i : Instr} {s t : State} (h : Executed i s t) (hm : s.mem.wf) : t.mem.wf := by
  cases h with
  | stored ea v u walk => exact setWord_memWf (walk.memWf hm) ea v
  | result _ _ u walk | advanced u walk | characterRead _ u walk | suspended _ u walk => exact walk.memWf hm
  | jumped | linked | halted | fatal => exact hm

theorem Executed.flagsLegal {i : Instr} {s t : State} (h : Executed i s t) (hl : s.flags.Legal) :
    t.flags.Legal := by
  cases h with
  | result _ v => exact flagsOf_legal v
  | stored _ _ u walk | advanced u walk | characterRead _ u walk | suspended _ u walk =>
    exact (walk.flags : u.flags = s.flags) ▸ hl
  | jumped | linked | halted | fatal => exact hl

/-! ### The step around the instruction -/

/-- The state in which a ready machine's instruction runs: Running, with no fault and no suspension. -/
theorem fetch_walked (s : State) : Walked (beginStep s) (fetch (beginStep s)).2 := .memRead _ _

theorem Ready.fetch_completed {s : State} (h : Ready s) : Completed (fetch (beginStep s)).2 :=
  (fetch_walked s).completed h.2

/-- A fetched instruction that has not been held stops a running machine exactly if it is HALT
or takes the fatal path. -/
theorem exec_decode_stopped_iff {w : Word} {s t : State} (h : exec (decode w) s = .next t) (hs : Completed s)
    (hr : s.runState = .running) (hw : t.waiting = none) :
    t.runState = .stopped ↔ decode w = .halt ∨ t.fault.isSome = true := by
  by_cases hi : decode w = .halt
  · rw [hi] at h
    cases h
    simp [hi]
  · rcases (exec_decode_cases h).control hs with ⟨ht, -, hrun⟩ | ⟨-, -, hrun, f, hf, -⟩ | ⟨-, hwait, -, -⟩
    · simp [hi, ht.1, hrun hi, hr]
    · simp [hrun, hf]
    · simp [hw] at hwait

@[simp] theorem finishStep_runState (s : State) : (finishStep s).runState = s.runState := by
  rcases finishStep_cases s with ⟨-, -, h⟩ | ⟨-, h⟩ <;> simp [h]

@[simp] theorem finishStep_fault (s : State) : (finishStep s).fault = s.fault := by
  rcases finishStep_cases s with ⟨-, -, h⟩ | ⟨-, h⟩ <;> simp [h]

@[simp] theorem finishStep_waiting (s : State) : (finishStep s).waiting = s.waiting := by
  rcases finishStep_cases s with ⟨-, -, h⟩ | ⟨-, h⟩ <;> simp [h]

theorem statusOf_of_completed {t : State} (ht : Completed t) :
    statusOf t = some (if t.runState = .stopped then .halted else .ok) := by
  cases hr : t.runState <;> simp [statusOf, ht.1, ht.2, hr]

/-! ### The invariant -/

/-- The invariant outside a fault asks nothing of the latch. -/
theorem State.Inv.of_no_fault {s : State} (hm : s.mem.wf) (hl : s.flags.Legal) (hf : s.fault = none)
    (hw : s.waiting.isSome = true → s.runState = .running) : s.Inv :=
  ⟨hm, hl, by simp [hf], by simp [hf], hw⟩

/-- An instruction, or the rest of a service, that begins in a running machine outside a fault and a suspension leaves
the invariant. -/
theorem Executed.inv {i : Instr} {s t : State} (h : Executed i s t) (hs : Completed s) (hm : s.mem.wf)
    (hl : s.flags.Legal) (hr : s.runState = .running) : t.Inv := by
  have hm := h.memWf hm
  have hl := h.flagsLegal hl
  rcases h.control hs with ⟨ht, -, -⟩ | ⟨-, hw, hrun, f, hf, hrec⟩ | ⟨-, hw, hrun, hf⟩
  · exact .of_no_fault hm hl ht.1 (by simp [ht.2])
  · exact ⟨hm, hl, fun _ => ⟨hrun, hw⟩, fun g hg => by cases hf.symm.trans hg; exact hrec, by simp [hw]⟩
  · exact .of_no_fault hm hl hf fun _ => hrun.trans hr

/-- The count changes one word of memory. -/
theorem State.Inv.finishStep {s : State} (h : s.Inv) : (finishStep s).Inv := by
  rcases finishStep_cases s with ⟨-, -, e⟩ | ⟨-, e⟩ <;> rw [e]
  · exact { h with memWf := setWord_memWf h.memWf _ _ }
  · exact h

end Sys2Proof.Machine
end

section
/-! PROOFS of the state's statements (`10_state.md`): the invariant of every step, who writes the flags,
the registers and the pc, RunState and status, and the state after reset. -/

namespace Sys2Proof

open Sys2Proof.Machine

/-! ### Flags -/

/-- Settles O7: the sign of a word read as an unsigned number is its half of the range; exactly one flag by
`flagsOf_cases`. -/
theorem setccSignRule : Obligations.SetccSignRule := by
  intro v s
  obtain ⟨hn, hz, hp⟩ : SignFlags (setcc v s).flags v := flagsOf_sign v
  refine ⟨⟨hn, hz, hp⟩, ?_, ?_, ?_, ?_, rfl⟩
  · rw [hn, BitVec.toInt_eq_toNat_cond]; omega
  · rw [hz, BitVec.toInt_eq_toNat_cond]; omega
  · rw [hp, BitVec.toInt_eq_toNat_cond]; omega
  · rcases flagsOf_cases v with h | h | h <;> simp [h]

/-- Settles O49: a setting operation ends with its result written, and no other outcome touches the flags. -/
theorem flagWriters : Obligations.FlagWriters := by
  intro i s t h
  constructor
  · intro hf
    cases exec_cases h with
    | result dr v u walk sets => simp [hf] at sets
    | stored _ _ u walk | advanced u walk | characterRead _ u walk | suspended _ u walk => exact walk.flags
    | jumped | linked | halted | fatal => rfl
  · intro hf
    obtain ⟨dr, v, u, hd, -, hu⟩ := exec_of_setsFlags hf s
    cases hu.symm.trans h
    exact ⟨dr, hd, by simpa [writeResult_reg] using flagsOf_sign v⟩

/-! ### Registers -/

/-- Settles O50: only three outcomes write a register, each the one of the table. -/
theorem registerWriters : Obligations.RegisterWriters := by
  intro i s t h r hr
  rw [← Instr.destReg_canonical] at hr
  have other {dr : RegNum} (dest : i.canonical.destReg = some dr) : r ≠ dr := fun e => hr (e ▸ dest)
  cases exec_cases h with
  | result dr v u walk _ dest => exact (setReg_reg_of_ne u v (other dest)).trans (walk.reg r)
  | linked _ _ dest => exact setReg_reg_of_ne s _ (other dest)
  | characterRead c u walk dest => exact (setReg_reg_of_ne u _ (other dest)).trans (walk.reg r)
  | stored _ _ u walk | advanced u walk | suspended _ u walk => exact walk.reg r
  | jumped | halted | fatal => rfl

/-! ### The pc -/

/-- Settles O52: an instruction that does not override the pc completes at `pc + 1`, or keeps the pc. -/
theorem pcOverride : Obligations.PcOverride := by
  intro i s t hs h hi
  rw [← Instr.overridesPc_canonical] at hi
  rcases (exec_cases h).control hs with ⟨ht, hpc, -⟩ | ⟨hpc, -, -, f, hf, -⟩ | ⟨hpc, hw, -, -⟩
  · exact ⟨fun _ => hpc hi, fun hc => absurd ht hc⟩
  · exact ⟨fun ⟨ht, _⟩ => by simp [hf] at ht, fun _ => hpc⟩
  · exact ⟨fun ⟨_, ht⟩ => by simp [ht] at hw, fun _ => hpc⟩

/-! ### RunState and status after a step -/

/-- Settles O44: the step ends as its fetched instruction ends, and the count changes neither RunState nor the latch. -/
theorem stepStatus : Obligations.StepStatus := by
  intro s t hs h hw
  obtain ⟨u, hu⟩ := exec_next (decode (fetch (beginStep s)).1) (fetch (beginStep s)).2
  rw [step_of_exec hs hu] at h
  cases h
  rw [finishStep_waiting] at hw
  have stopped := exec_decode_stopped_iff hu hs.fetch_completed (fetch_walked s).runState hw
  rw [finishStep_runState, finishStep_fault]
  refine ⟨stopped, fun hf => ?_⟩
  rw [statusOf_of_completed ⟨by rwa [finishStep_fault], by rwa [finishStep_waiting]⟩, finishStep_runState]
  simp [stopped, hf]

/-! ### The invariant of every step -/

/-- Settles O58: a latched fault changes nothing; the two other kinds of step begin an instruction, or go on with a
service, outside a fault and a suspension, and Running. -/
theorem stepKeepsInvariant : Obligations.StepKeepsInvariant := by
  intro s t inv h
  rcases step_cases h with ⟨-, rfl⟩ | ⟨k, hf, hw, rfl⟩ | ⟨hs, u, hu, rfl⟩
  · exact inv
  · have hr := inv.waitingRunning (by simp [hw])
    exact ((resumeService_executed k s).inv ⟨hf, rfl⟩ inv.memWf inv.flagsLegal hr).finishStep
  · have walk := fetch_walked s
    exact ((exec_decode_cases hu).inv hs.fetch_completed (walk.memWf inv.memWf) (walk.flags ▸ inv.flagsLegal)
      walk.runState).finishStep

/-! ### The state after reset -/

/-- Settles O48: Construct and Reset write the fields, whatever the initial pc and flags; every register is one of
eight zeros. -/
theorem stateAfterReset : Obligations.StateAfterReset :=
  ⟨fun _ _ => rfl, by decide, rfl, rfl, rfl, rfl, rfl⟩

/-- Settles O59: memory is empty, the flags are clear, and there is no fault and no suspension. -/
theorem resetMeetsInvariant : Obligations.ResetMeetsInvariant :=
  State.Inv.of_no_fault reset_memWf (.inl rfl) rfl nofun

end Sys2Proof
end

section
/-! SUPPORT and PROOFS of the memory statements (`20_memory.md`): what a read and a write do at every address, what an
instruction can change in memory, how a step moves the ports, and what a store or a load meets at the next instruction
and at the counter. -/

namespace Sys2Proof.Machine

/-! ### Reads and writes -/

theorem memRead_kbsr_of_none {s : State} (h : s.input.next = none) : memRead kbsrAddr s = (0#16, s) := by
  simp [memRead, readStatus, h]

theorem memRead_kbsr_of_notReady {s : State} {rest : InputSource} (h : s.input.next = some (.notReady, rest)) :
    memRead kbsrAddr s = (0#16, { s with input := rest }) := by
  simp [memRead, readStatus, h]

theorem memRead_kbsr_of_char {s : State} {c : Character} {rest : InputSource}
    (h : s.input.next = some (.char c, rest)) :
    memRead kbsrAddr s = (charAvailable, { s with input := rest }.setWord kbdrAddr (zext c)) := by
  simp [memRead, readStatus, h]

theorem zext_toNat (c : Character) : (zext c).toNat = c.toNat :=
  BitVec.toNat_setWidth_of_le (by decide)

/-- The word stored at the input-status register is never read: a read depends on the other words and on the input
only (R56, R58). -/
theorem memRead_congr {s t : State} (hi : t.input = s.input) (hm : SameMemBut kbsrAddr s t) (a : Word) :
    (memRead a t).1 = (memRead a s).1 ∧ SameMemBut kbsrAddr (memRead a s).2 (memRead a t).2 := by
  by_cases ha : a = kbsrAddr
  · subst ha
    rcases h : s.input.next with _ | ⟨_ | c, rest⟩ <;> have h' := (congrArg InputSource.next hi).trans h
    · rw [memRead_kbsr_of_none h, memRead_kbsr_of_none h']
      exact ⟨rfl, hm⟩
    · rw [memRead_kbsr_of_notReady h, memRead_kbsr_of_notReady h']
      exact ⟨rfl, hm⟩
    · rw [memRead_kbsr_of_char h, memRead_kbsr_of_char h']
      refine ⟨rfl, fun b hb => ?_⟩
      simp only [setWord_word]
      split
      · rfl
      · exact hm b hb
  · rw [memRead_plain s ha, memRead_plain t ha]
    exact ⟨hm a ha, hm⟩

end Sys2Proof.Machine

namespace Sys2Proof

open Sys2Proof.Machine

/-- Settles O8: plain storage at every address but one, and there one outcome for each answer of the input. -/
theorem memReadEverywhere : Obligations.MemReadEverywhere := by
  refine ⟨fun a s ha => memRead_plain s ha, fun s hl ht => memRead_kbsr_of_none (next_eq_none.2 ⟨hl, ht⟩),
    fun s l hl => memRead_kbsr_of_notReady (by simp [InputSource.next, hl]), fun s c rest h => ?_⟩
  refine ⟨_, memRead_kbsr_of_char h, rfl, ?_, fun b hb => setWord_word_of_ne _ _ hb, fun _ => rfl, rfl, rfl, rfl,
    rfl, rfl, rfl, rfl, rfl⟩
  rw [← zext_toNat c]
  exact congrArg BitVec.toNat (setWord_word_self _ kbdrAddr (zext c))

/-- Settles O9: read after write, and a write touches no other field. -/
theorem memWriteEverywhere : Obligations.MemWriteEverywhere := fun a v s =>
  ⟨setWord_word_self s a v, fun _ hb => setWord_word_of_ne s v hb, ⟨rfl, rfl⟩, fun _ => rfl, rfl, rfl, rfl, rfl,
    rfl, rfl, rfl⟩

/-- Settles O10: a data read is a read of plain storage, and no read sees the word stored at the status register. -/
theorem deviceWrites : Obligations.DeviceWrites := by
  refine ⟨fun v s => ?_, fun v s => ⟨setWord_word_self s _ v, ?_⟩, fun v s => ⟨⟨rfl, rfl⟩, rfl, rfl⟩⟩
  · rw [memRead_plain _ (by decide)]
    exact setWord_word_self s _ v
  · exact memRead_congr (t := memWrite kbsrAddr v s) rfl fun b hb => setWord_word_of_ne s v hb

end Sys2Proof

/-! ### What an instruction changes in memory -/

namespace Sys2Proof

open Sys2Proof.Machine

@[simp] theorem Instr.storesTo_canonical (i : Instr) : i.canonical.storesTo = i.storesTo :=
  canonical_eq Instr.storesTo (fun _ => ⟨rfl, rfl, rfl, rfl, rfl, rfl⟩) i

namespace Machine

/-- A walk keeps every word but the latch, and the latch too while no answer of the input is used up. -/
theorem Walked.word_eq {s u : State} (h : Walked s u) {a : Word} (ha : a ≠ kbdrAddr ∨ u.input = s.input) :
    u.word a = s.word a := by
  rcases ha with ha | hi
  · exact h.word a ha
  · simp [State.word, h.latch hi]

/-- The words an instruction leaves alone: those it does not store to, the latch only while no answer of the input is
used up (R54, R55, R69). -/
theorem Executed.word_eq {i : Instr} {s t : State} (h : Executed i s t) {a : Word} (hs : i.storesTo s ≠ some a)
    (ha : a ≠ kbdrAddr ∨ t.input = s.input) : t.word a = s.word a := by
  cases h with
  | stored ea v u walk stores =>
    have hne : a ≠ ea := fun e => hs (e ▸ stores)
    exact (setWord_word_of_ne u v hne).trans (walk.word_eq ha)
  | result _ _ u walk | advanced u walk | characterRead _ u walk | suspended _ u walk => exact walk.word_eq ha
  | jumped | linked | halted | fatal => rfl

end Machine

/-- Settles O51: the two parts are the two ways a word is left alone by `Executed.word_eq`. -/
theorem memoryWriters : Obligations.MemoryWriters := by
  intro i s t h
  have he := exec_cases h
  rw [← Instr.storesTo_canonical]
  exact ⟨fun _ ha hs => he.word_eq hs (.inl ha), fun hi hs => he.word_eq hs (.inr hi)⟩

end Sys2Proof

/-! ### The ports -/

namespace Sys2Proof.Machine

/-- The output is a continuation, the input is used from the front, and the image flag and the prompt are as before
(R70). -/
structure PortsForward (s t : State) : Prop where
  output : s.output <+: t.output
  input : s.input.UsedTo t.input
  setup : SameSetup s t

theorem PortsForward.refl (s : State) : PortsForward s s := ⟨List.prefix_rfl, .refl _, rfl, rfl⟩

theorem PortsForward.trans {s t u : State} (h : PortsForward s t) (h' : PortsForward t u) : PortsForward s u :=
  ⟨h.output.trans h'.output, h.input.trans h'.input, h'.setup.1.trans h.setup.1, h'.setup.2.trans h.setup.2⟩

theorem Walked.portsForward {s u : State} (h : Walked s u) : PortsForward s u :=
  ⟨h.output, h.input, h.loaded, h.inPrompt⟩

theorem finishStep_portsForward (s : State) : PortsForward s (finishStep s) := by
  rcases finishStep_cases s with ⟨-, -, h⟩ | ⟨-, h⟩ <;> rw [h]
  · exact ⟨List.prefix_rfl, .refl _, rfl, rfl⟩
  · exact .refl s

/-- Nothing but the reads and the output of an instruction calls a collaborator. -/
theorem Executed.portsForward {i : Instr} {s t : State} (h : Executed i s t) : PortsForward s t := by
  cases h with
  | result _ _ u walk | stored _ _ u walk | advanced u walk | characterRead _ u walk | suspended _ u walk =>
    exact { walk.portsForward with }
  | jumped | linked | halted | fatal => exact { PortsForward.refl s with }

/-- All three kinds of step move the ports forward. -/
theorem step_portsForward {s t : State} (h : step s = .next t) : PortsForward s t := by
  rcases step_cases h with ⟨-, rfl⟩ | ⟨k, -, -, rfl⟩ | ⟨-, u, hu, rfl⟩
  · exact .refl _
  · exact { (resumeService_executed k s).portsForward.trans (finishStep_portsForward _) with }
  · have fetched : PortsForward s (fetch (beginStep s)).2 := { (fetch_walked s).portsForward with }
    exact fetched.trans ((exec_decode_cases hu).portsForward.trans (finishStep_portsForward u))

end Sys2Proof.Machine

namespace Sys2Proof

open Sys2Proof.Machine

/-- Settles O54: `step_portsForward`, with the continuation of the output written as an append. -/
theorem portsMoveForward : Obligations.PortsMoveForward := by
  intro s t h
  obtain ⟨⟨sent, hsent⟩, hinput, hsetup⟩ := step_portsForward h
  exact ⟨⟨sent, hsent.symm⟩, hinput, hsetup⟩

end Sys2Proof

/-! ### The step of a load or a store -/

namespace Sys2Proof.Machine

theorem SameControl.completed {s t : State} (h : SameControl s t) (hs : Completed s) : Completed t :=
  ⟨h.2.1.trans hs.1, h.2.2.1.trans hs.2⟩

@[simp] theorem fetch_beginStep_reg (s : State) (r : RegNum) : (fetch (beginStep s)).2.reg r = s.reg r :=
  (fetch_walked s).reg r

@[simp] theorem fetch_beginStep_pc (s : State) : (fetch (beginStep s)).2.pc = s.pc := (fetch_walked s).pc

theorem pcRelative_fetch {n : Nat} (off : BitVec n) (s : State) :
    pcRelative off (fetch (beginStep s)).2 = s.pc + 1#16 + sext off := by simp [pcRelative, State.npc]

theorem baseOffset_fetch (base : RegNum) (off : BitVec 6) (s : State) :
    baseOffset base off (fetch (beginStep s)).2 = s.reg base + sext off := by simp [baseOffset]

variable {s : State} {i : Instr} {ea : Word}

/-- A ready machine's step, when its instruction runs to its end, is that and the count (R111, R117). -/
theorem Ready.step_of_completed {u : State} (h : Ready s) (hd : decode (fetch (beginStep s)).1 = i)
    (hu : exec i (fetch (beginStep s)).2 = .next u) (hc : SameControl (fetch (beginStep s)).2 u) :
    step s = .next (countStep u) := by
  obtain ⟨hf, hw⟩ := hc.completed h.fetch_completed
  rw [step_of_exec h (hd ▸ hu), finishStep_of_completed hf hw]

/-- The step of a store: its word is in memory, and then the counter counts. -/
theorem Ready.step_of_storeTo {sr : RegNum} (h : Ready s) (hd : decode (fetch (beginStep s)).1 = i)
    (hi : exec i (fetch (beginStep s)).2 = storeTo sr ea (fetch (beginStep s)).2) :
    ∃ u, step s = .next (countStep u) ∧ u.word ea = s.reg sr ∧ u.pc = s.pc + 1#16 := by
  obtain ⟨u, hu, hword, -, -, -, hpc, -, hcontrol⟩ := storeTo_next sr ea (fetch (beginStep s)).2
  exact ⟨u, h.step_of_completed hd (hi.trans hu) hcontrol, by simpa using hword, by simpa using hpc⟩

/-- A store to the counter is counted on (R59). -/
theorem Ready.step_of_storeTo_counter {sr : RegNum} (h : Ready s) (hd : decode (fetch (beginStep s)).1 = i)
    (hi : exec i (fetch (beginStep s)).2 = storeTo sr ea (fetch (beginStep s)).2) (hea : ea = counterAddr) :
    ∃ t, step s = .next t ∧ t.word counterAddr = s.reg sr + 1#16 := by
  obtain ⟨u, hstep, hword, -⟩ := h.step_of_storeTo hd hi
  exact ⟨_, hstep, by rw [countStep_word, if_pos rfl, ← hword, hea]⟩

/-- A load from the counter comes before the count, and the fetch has not changed the counter (R59). -/
theorem Ready.step_of_loadFrom_counter {dr : RegNum} (h : Ready s) (hd : decode (fetch (beginStep s)).1 = i)
    (hi : exec i (fetch (beginStep s)).2 = loadFrom dr ea (fetch (beginStep s)).2) (hea : ea = counterAddr) :
    ∃ t, step s = .next t ∧ t.reg dr = s.word counterAddr := by
  subst hea
  obtain ⟨u, hu, ⟨hreg, -, -, -, hcontrol⟩, -, -⟩ := loadFrom_next dr counterAddr (fetch (beginStep s)).2
  have fetched : (fetch (beginStep s)).2.word counterAddr = s.word counterAddr :=
    (fetch_walked s).word counterAddr (by decide)
  rw [memRead_plain _ (by decide), fetched] at hreg
  exact ⟨_, h.step_of_completed hd (hi.trans hu) hcontrol, hreg⟩

end Sys2Proof.Machine

namespace Sys2Proof

open Sys2Proof.Machine

/-- Settles O55: with offset 0 the store is to the word the pc goes on at; it is neither counted over nor hidden behind
the status register. -/
theorem nextFetchSeesStore : Obligations.NextFetchSeesStore := by
  intro s t sr hs hd hkbsr hcounter h
  have hea : pcRelative 0#9 (fetch (beginStep s)).2 = s.pc + 1#16 := by
    rw [pcRelative_fetch]
    simp [sext]
  obtain ⟨u, hstep, hword, hpc⟩ := hs.step_of_storeTo hd rfl
  rw [hea] at hword
  cases hstep.symm.trans h
  refine ⟨?_, hpc⟩
  have fetched : fetch (beginStep (countStep u)) = memRead (s.pc + 1#16) (beginStep (countStep u)) := by
    simp [fetch, hpc]
  rw [fetched, memRead_plain _ hkbsr]
  exact (countStep_word u _).trans ((if_neg hcounter).trans hword)

/-- Settles O56: each of the four is a load or a store at its effective address, which the fetch does not change. -/
theorem counterLoadAndStore : Obligations.CounterLoadAndStore := fun s hs =>
  ⟨fun _ base off hd hea => hs.step_of_loadFrom_counter hd rfl ((baseOffset_fetch base off s).trans hea),
    fun _ off hd hea => hs.step_of_loadFrom_counter hd rfl ((pcRelative_fetch off s).trans hea),
    fun _ base off hd hea => hs.step_of_storeTo_counter hd rfl ((baseOffset_fetch base off s).trans hea),
    fun _ off hd hea => hs.step_of_storeTo_counter hd rfl ((pcRelative_fetch off s).trans hea)⟩

end Sys2Proof
end

section
/-! SUPPORT and PROOFS of the encoding statements (`30_encoding.md`): the decoder reads every field where the encoder
put it, the rows of the opcode table look at the same bits as the decoder, and no word leaves a step without a next
state. -/

namespace Sys2Proof

open Sys2Proof.Machine

/-! ### Decoding an encoded instruction -/

/-- A field below the opcode is read from the operands. -/
theorem bits_encode (i : Instr) {hi lo : Nat} (hlo : lo ≤ hi) (hhi : hi ≤ 11) :
    bits (encode i) hi lo = i.operands.extractLsb' lo (hi - lo + 1) :=
  BitVec.extractLsb'_append_eq_of_add_le (by omega)

/-- A bit below the opcode is the one-bit field of the operands there, which is how the encoder writes it. -/
theorem bit_encode (i : Instr) {k : Nat} (hk : k ≤ 11) : bit (encode i) k = (i.operands.extractLsb' k 1 == 1#1) := by
  rw [bit, BitVec.getLsbD_eq_extractLsb', encode, BitVec.extractLsb'_append_eq_of_add_le (by omega)]

theorem ofBool_beq_one (b : Bool) : (BitVec.ofBool b == 1#1) = b := by cases b <;> rfl

/-- The opcode chooses the decoder's branch, and there each field is the part of the operands that the encoder put at
that place. Two things are left: the three condition bits of BR, and the second level of the decoder, by which a trap
term comes back as the service it names. (`Nat.reduceAdd` would rewrite the widths of the appended fields.) -/
theorem decode_encode (i : Instr) : decode (encode i) = i.canonical := by
  have opcode : bits (encode i) 15 12 = i.opcode := Laws.OpcodeField.of_encode i
  unfold decode
  rw [opcode]
  cases i
  all_goals
    simp (disch := omega) [Instr.opcode, Instr.operands, Instr.canonical, bits_encode, bit_encode,
      BitVec.extractLsb'_append_eq_of_add_le, BitVec.extractLsb'_append_eq_of_le, -Nat.reduceAdd]
  case br n z p off => exact ⟨ofBool_beq_one n, ofBool_beq_one z, ofBool_beq_one p⟩
  case getc | out | puts | in_ | putsp | halt => rfl

/-- Settles O4: a well-formed instruction is in canonical form. -/
theorem decodeEncodeRoundTrip : Obligations.DecodeEncodeRoundTrip := fun i hi =>
  (decode_encode i).trans (Instr.canonical_of_wellFormed hi)

/-! ### Words under the mask of a row -/

theorem bits_and (v w : Word) (hi lo : Nat) : bits (v &&& w) hi lo = bits v hi lo &&& bits w hi lo :=
  BitVec.extractLsb'_and

theorem bit_and (v w : Word) (k : Nat) : bit (v &&& w) k = (bit v k && bit w k) := BitVec.getLsbD_and

/-- The bits that choose a decode row: the opcode, bit 11 (JSR or JSRR) and bit 5 (immediate or register). -/
def rowMask : Word := BitVec.allOnes 4 ++ BitVec.allOnes 1 ++ 0#5 ++ BitVec.allOnes 1 ++ 0#5

/-- What is left of a word under `rowMask`: the three selecting fields, and 0 elsewhere. -/
def selectorWord (op : BitVec 4) (link imm : BitVec 1) : Word := op ++ link ++ 0#5 ++ imm ++ 0#5

theorem and_rowMask (w : Word) : w &&& rowMask = selectorWord (bits w 15 12) (bits w 11 11) (bits w 5 5) := by
  have fields : w = bits w 15 12 ++ bits w 11 11 ++ bits w 10 6 ++ bits w 5 5 ++ bits w 4 0 := by
    simp only [bits, BitVec.extractLsb]
    iterate 4 rw [BitVec.extractLsb'_append_extractLsb'_eq_extractLsb' (by decide)]
    exact BitVec.extractLsb'_eq_self.symm
  conv_lhs => rw [fields, rowMask]
  iterate 4 rw [BitVec.and_append]
  simp only [BitVec.and_allOnes, BitVec.and_zero, selectorWord]

/-- The bits that choose a service: the opcode and the vector. -/
def serviceMask : Word := BitVec.allOnes 4 ++ 0#4 ++ BitVec.allOnes 8

theorem and_serviceMask (w : Word) : w &&& serviceMask = bits w 15 12 ++ 0#4 ++ bits w 7 0 := by
  have fields : w = bits w 15 12 ++ bits w 11 8 ++ bits w 7 0 := by
    simp only [bits, BitVec.extractLsb]
    iterate 2 rw [BitVec.extractLsb'_append_extractLsb'_eq_extractLsb' (by decide)]
    exact BitVec.extractLsb'_eq_self.symm
  conv_lhs => rw [fields, serviceMask]
  iterate 2 rw [BitVec.and_append]
  simp only [BitVec.and_allOnes, BitVec.and_zero]

/-! ### The decode rows -/

theorem decodeRow_decodeTrap (ign : BitVec 4) (vec : BitVec 8) : (decodeTrap ign vec).decodeRow = ("TRAP", "TRAP") :=
  Instr.canonical_eq Instr.decodeRow (fun _ => ⟨rfl, rfl, rfl, rfl, rfl, rfl⟩) (.trap ign vec)

/-- The decoder chooses the row by the bits of `rowMask` alone. -/
theorem decodeRow_decode_and_rowMask (w : Word) : (decode (w &&& rowMask)).decodeRow = (decode w).decodeRow := by
  have hop : bits (w &&& rowMask) 15 12 = bits w 15 12 := (bits_and ..).trans BitVec.and_allOnes
  have h11 : bit (w &&& rowMask) 11 = bit w 11 := (bit_and ..).trans (Bool.and_true _)
  have h5 : bit (w &&& rowMask) 5 = bit w 5 := (bit_and ..).trans (Bool.and_true _)
  unfold decode
  rw [hop, h11, h5]
  split
  case h_2 | h_5 | h_6 => split <;> rfl
  case h_16 => rw [decodeRow_decodeTrap, decodeRow_decodeTrap]
  all_goals rfl

/-- So does the table: no row's mask has another bit. -/
theorem covers_and_rowMask {row : OpcodeRow} (hrow : row ∈ opcodeRows) (w : Word) :
    row.covers (w &&& rowMask) = row.covers w := by
  have hmask : ∀ row ∈ opcodeRows, rowMask &&& row.mask = row.mask := by decide
  rw [OpcodeRow.covers, BitVec.and_assoc, hmask row hrow, OpcodeRow.covers]

/-- The table and the decoder agree on the 64 words that remain. -/
theorem decodeRows_selectorWord : ∀ (op : BitVec 4) (link imm : BitVec 1),
    (opcodeRows.filter fun row => row.covers (selectorWord op link imm)).map OpcodeRow.name =
      [(decode (selectorWord op link imm)).decodeRow] := by decide

theorem decodeRows_covering (w : Word) :
    (opcodeRows.filter fun row => row.covers w).map OpcodeRow.name = [(decode w).decodeRow] := by
  rw [← List.filter_congr fun row hrow => covers_and_rowMask hrow w, ← decodeRow_decode_and_rowMask, and_rowMask]
  exact decodeRows_selectorWord ..

/-! ### The rows of the services -/

/-- A service's row covers the TRAP words with its vector. -/
theorem serviceRow_covers_iff {row : OpcodeRow} (hrow : row ∈ serviceRows) (w : Word) :
    row.covers w = true ↔ bits w 15 12 = 0xF#4 ∧ bits w 7 0 = bits row.value 7 0 := by
  have hform : ∀ row ∈ serviceRows,
    row.mask = serviceMask ∧ bits row.value 15 12 = 0xF#4 ∧ 0xF#4 ++ 0#4 ++ bits row.value 7 0 = row.value := by decide
  obtain ⟨hmask, hop, hvalue⟩ := hform row hrow
  rw [OpcodeRow.covers, beq_iff_eq, hmask]
  constructor
  · intro h
    rw [← h, bits_and] at hop
    rw [← h, bits_and]
    exact ⟨BitVec.and_allOnes.symm.trans hop, BitVec.and_allOnes.symm⟩
  · rintro ⟨h1, h2⟩
    rw [and_serviceMask, h1, h2, hvalue]

theorem decode_of_trap {w : Word} (h : bits w 15 12 = 0xF#4) : decode w = decodeTrap (bits w 11 8) (bits w 7 0) := by
  rw [decode, h]
  rfl

theorem serviceRow_decode_of_not_trap {w : Word} (h : bits w 15 12 ≠ 0xF#4) : (decode w).serviceRow = none := by
  have hlt : (bits w 15 12).toNat < 16 := (bits w 15 12).isLt
  have hne : (bits w 15 12).toNat ≠ 15 := fun h15 => h (BitVec.eq_of_toNat_eq h15)
  unfold decode
  split
  -- the last branch is that of opcode 15 alone
  case h_16 => grind
  case h_2 | h_5 | h_6 => split <;> rfl
  all_goals rfl

/-- Among the TRAP words the service's row is found by the vector, as the decoder finds the service. -/
theorem serviceRows_decodeTrap (ign : BitVec 4) (vec : BitVec 8) :
    (serviceRows.filter fun row => vec = bits row.value 7 0).map OpcodeRow.name =
      (decodeTrap ign vec).serviceRow.toList := by
  rcases decodeTrap_cases ign vec with ⟨hv, h⟩ | rfl | rfl | rfl | rfl | rfl | rfl
  · have vectors : ∀ row ∈ serviceRows, bits row.value 7 0 ∈ serviceVectors := by decide
    rw [h, List.filter_eq_nil_iff.2]
    · rfl
    · intro row hrow hvec
      exact hv (of_decide_eq_true hvec ▸ vectors row hrow)
  all_goals rfl

theorem serviceRows_covering (w : Word) :
    (serviceRows.filter fun row => row.covers w).map OpcodeRow.name = (decode w).serviceRow.toList := by
  by_cases hop : bits w 15 12 = 0xF#4
  · rw [decode_of_trap hop, ← serviceRows_decodeTrap]
    refine congrArg _ (List.filter_congr fun row hrow => ?_)
    rw [Bool.eq_iff_iff, serviceRow_covers_iff hrow, decide_eq_true_iff]
    exact and_iff_right hop
  · rw [serviceRow_decode_of_not_trap hop,
      List.filter_eq_nil_iff.2 fun row hrow h => hop ((serviceRow_covers_iff hrow w).1 h).1]
    rfl

/-- Settles O5: the decode rows, the services' rows, and the form of what is decoded. -/
theorem tableRowsPartitionWords : Obligations.TableRowsPartitionWords :=
  ⟨rfl, rfl, fun w => ⟨decodeRows_covering w, serviceRows_covering w, decode_wellFormed w⟩⟩

/-! ### Every word is executed -/

/-- While a fault is latched a step changes nothing (R119). -/
theorem Machine.step_of_latched {s : State} (h : s.fault.isSome = true) : step s = .next s := by
  simp [step, stepOnce, h]

/-- Settles O57: the three kinds of step, by the fault latch and the suspension, all have a next state; a ready
machine's is the one `exec_next` gives, whatever word was fetched. -/
theorem loadedStepAlwaysAnswers : Obligations.LoadedStepAlwaysAnswers := by
  intro s hl
  cases hf : s.fault with
  | some f => exact ⟨s, step_of_latched (by simp [hf])⟩
  | none =>
    cases hw : s.waiting with
    | some k => exact ⟨_, step_of_suspended hf hw⟩
    | none =>
      obtain ⟨u, hu⟩ := exec_next (decode (fetch (beginStep s)).1) (fetch (beginStep s)).2
      exact ⟨_, step_of_exec ⟨hl, hf, hw⟩ hu⟩

end Sys2Proof
end

section
/-! SUPPORT and PROOFS of the step protocol's statements (`40_engine_step.md`): what a read without a character holds
and what its delivery completes, what a step does around its instruction, and the host operations. -/

namespace Sys2Proof.Machine

/-! ### The blocking read -/

/-- Without a character the read only records that it waits (R124, R183). -/
theorem blockingRead_of_noCharComes {s : State} (h : NoCharComes s) (k : BlockedRead) :
    blockingRead k s = { s with waiting := some (.read k) } := by
  simp [blockingRead, nextChar_eq_none.2 h]

/-- With a character the service runs to its end. -/
theorem blockingRead_of_nextCharIs {s : State} {c : Character} {rest : InputSource} (h : NextCharIs s c rest)
    (k : BlockedRead) : blockingRead k s = finishRead k c { s with input := rest, waiting := none } := by
  simp [blockingRead, nextChar_eq_some.2 h]

theorem heldFor_of_noCharComes {s : State} (h : NoCharComes s) (k : BlockedRead) :
    HeldFor k s (blockingRead k s) := by
  rw [blockingRead_of_noCharComes h]
  exact ⟨rfl, rfl, fun _ => rfl, rfl, fun _ => rfl, rfl, rfl, rfl, rfl, rfl⟩

/-- What a service sends once its character has come: IN echoes it (R187). -/
def BlockedRead.echo (k : BlockedRead) (c : Character) : List Character :=
  match k with
  | .getc => []
  | .in_ => [c]

/-- Both services end alike but for the echo. -/
theorem finishRead_eq (k : BlockedRead) (c : Character) (s : State) :
    finishRead k c s = advance ((outWriteAll (k.echo c) s).setReg serviceReg (zext c)) := by
  cases k with
  | getc => exact congrArg (fun t : State => advance (t.setReg serviceReg (zext c))) (outWriteAll_nil s).symm
  | in_ => rfl

/-- The character is in `x[0]`, the echo is sent, and the rest is as `CharacterRead` says (R184, R187). -/
theorem characterRead_of_nextCharIs {s : State} {c : Character} {rest : InputSource} (h : NextCharIs s c rest)
    (k : BlockedRead) :
    CharacterRead c rest s (blockingRead k s) ∧ (blockingRead k s).output = s.output ++ k.echo c := by
  rw [blockingRead_of_nextCharIs h, finishRead_eq]
  refine ⟨⟨?_, fun r hr => ?_, rfl, rfl, fun _ => rfl, rfl, rfl, rfl, rfl, rfl, rfl⟩, rfl⟩
  · rw [advance_reg, serviceReg, setReg_reg_self, zext_toNat]
  · exact setReg_reg_of_ne _ _ hr

/-! ### The count after the instruction -/

theorem finishStep_of_not_completed {s : State} (h : ¬ Completed s) : finishStep s = s := by
  rcases finishStep_cases s with ⟨hf, hw, -⟩ | ⟨-, e⟩
  · exact absurd ⟨hf, hw⟩ h
  · exact e

theorem countStep_counter_toNat (s : State) :
    ((countStep s).word counterAddr).toNat = ((s.word counterAddr).toNat + 1) % 65536 := by
  rw [countStep_word, if_pos rfl, BitVec.toNat_add]
  rfl

/-! ### The fatal step -/

theorem not_mem_serviceVectors {vec : BitVec 8} (h : vec.toNat < 0x20 ∨ 0x25 < vec.toNat) : vec ∉ serviceVectors := by
  have range : ∀ v ∈ serviceVectors, 0x20 ≤ v.toNat ∧ v.toNat ≤ 0x25 := by decide
  intro hv
  have := range vec hv
  omega

theorem decode_trapWord_of_not_service {g : BitVec 4} {vec : BitVec 8} (h : vec ∉ serviceVectors) :
    decode (trapWord g vec) = .trap g vec := by
  have encoded : trapWord g vec = encode (.trap g vec) := BitVec.append_assoc
  rw [encoded, decode_encode]
  exact decodeTrap_of_not_service g (by simpa using h)

/-- The step of a TRAP without a service is the fatal path and no count (R118). -/
theorem Ready.step_of_unknown_trap {s : State} {g : BitVec 4} {vec : BitVec 8} (hs : Ready s)
    (hv : vec ∉ serviceVectors) (hw : (fetch (beginStep s)).1 = trapWord g vec) :
    step s = .next (raiseUnimplementedTrap vec (trapWord g vec) (fetch (beginStep s)).2) := by
  have hd : decode (fetch (beginStep s)).1 = .trap g vec := hw ▸ decode_trapWord_of_not_service hv
  rw [step_of_exec hs (hd ▸ exec_trap_of_not_service hv _), finishStep_of_not_completed (by simp [Completed])]

/-! ### The host operations -/

theorem whenIdle_of_waiting_none {s : State} (h : s.waiting = none) (t : State) : whenIdle s t = .next t := by
  simp [whenIdle, h]

/-- A host operation that answers was called between steps. -/
theorem whenIdle_eq_next {s t u : State} (h : whenIdle s t = .next u) : s.waiting = none ∧ u = t := by
  cases hw : s.waiting with
  | some k => simp [whenIdle, hw] at h
  | none =>
    rw [whenIdle_of_waiting_none hw] at h
    cases h
    exact ⟨rfl, rfl⟩

theorem hostRun_of_loaded {s : State} (hl : s.loaded = true) (hw : s.waiting = none) (k : Nat) :
    hostRun k s = runLoop k s := by
  simp [hostRun, hl, hw]

theorem hostRun_of_not_loaded {s : State} (hl : s.loaded = false) (hw : s.waiting = none) (k : Nat) :
    hostRun k s = .done .missingProgram s := by
  simp [hostRun, hl, hw]

theorem statusOf_of_latched {s : State} {f : UnimplementedTrap} (hf : s.fault = some f) (hw : s.waiting = none) :
    statusOf s = some (.fatal f) := by
  simp [statusOf, hf, hw]

/-- The loop of Run returns the first Fatal it meets (R121). -/
theorem runLoop_of_fatal {s t : State} {f : UnimplementedTrap} (hstep : step s = .next t)
    (hstatus : statusOf t = some (.fatal f)) (k : Nat) : runLoop (k + 1) s = .done (.fatal f) t := by
  simp [runLoop, hstep, hstatus]

/-- A Step before LoadImage has no meaning (R40; log entry 5). -/
theorem step_of_not_loaded {s : State} (hl : s.loaded = false) (hw : s.waiting = none) (hf : s.fault = none) :
    step s = .refused .stepBeforeLoadImage := by
  simp [step, stepOnce, freshStep, hl, hw, hf]

end Sys2Proof.Machine

namespace Sys2Proof

open Sys2Proof.Machine

/-! ### Held reads -/

/-- Settles O32: GETC and IN are the blocking read, IN after its prompt; in a held state the record of the wait is
already what the read writes, so a further step is the identity. -/
theorem blockedReadHolds : Obligations.BlockedReadHolds := by
  refine ⟨fun s h => ⟨⟨_, rfl, heldFor_of_noCharComes h .getc, ?_⟩, _, rfl,
    heldFor_of_noCharComes (s := outWriteAll s.inPrompt s) h .in_, ?_⟩, fun s k hw hf h => ?_⟩
  · rw [blockingRead_of_noCharComes h]
  · exact congrArg State.output (blockingRead_of_noCharComes (s := outWriteAll s.inPrompt s) h .in_)
  · have hold : resumeService (.read k) s = s := (blockingRead_of_noCharComes h k).trans (by rw [← hw])
    rw [step_of_suspended hf hw, hold, finishStep_of_not_completed (by simp [Completed, hw])]

/-- Settles O33: the resumed read completes with its service's effect, which leaves the counter for the count. -/
theorem deliveryCompletesBlockedRead : Obligations.DeliveryCompletesBlockedRead := by
  intro s k c rest hw hf h
  obtain ⟨hread, hout⟩ := characterRead_of_nextCharIs h k
  refine ⟨blockingRead k s, hread, by cases k <;> exact hout, ?_⟩
  obtain ⟨-, -, -, -, hmem, -, hwait, -, hfault, -⟩ := hread
  have count : finishStep (resumeService (.read k) s) = countStep (blockingRead k s) :=
    finishStep_of_completed (hfault.trans hf) hwait
  rw [step_of_suspended hf hw, count, countStep, hmem]
  rfl

/-! ### The step around its instruction -/

/-- Settles O40: a ready machine runs the fetched instruction, which always answers, and `finishStep` is the choice
between the count and none. -/
theorem stepRunsDecodedInstruction : Obligations.StepRunsDecodedInstruction := by
  rintro s _ hs rfl
  obtain ⟨u, hu⟩ := exec_next (decode (fetch (beginStep s)).1) (fetch (beginStep s)).2
  have answered : exec (decode (memRead s.pc { s with runState := .running }).1)
      (memRead s.pc { s with runState := .running }).2 = .next u := hu
  rw [step_of_exec hs hu, answered]
  exact apply_ite Host.Outcome.next _ u (countStep u)

/-- Settles O41: the count is the whole of what follows a completed instruction, and nothing follows another. -/
theorem counterCountsCompletedSteps : Obligations.CounterCountsCompletedSteps := by
  intro s u hs hu
  rw [step_of_exec hs hu]
  refine ⟨fun ⟨hf, hw⟩ => ?_, fun h => by rw [finishStep_of_not_completed h]⟩
  rw [finishStep_of_completed hf hw]
  exact ⟨_, rfl, countStep_counter_toNat u, fun _ ha => setWord_word_of_ne u _ ha, rfl, fun _ => rfl, rfl,
    ⟨rfl, rfl⟩, rfl, rfl, rfl, rfl, rfl⟩

/-- Settles O42: the fatal path changes the latch and RunState of the state after the fetch, and the fetch keeps
registers, flags and pc. -/
theorem fatalStepState : Obligations.FatalStepState := by
  intro s g vec hs hv hword
  have walk := fetch_walked s
  have latched : (raiseUnimplementedTrap vec (trapWord g vec) (fetch (beginStep s)).2).fault =
      some ⟨vec, s.pc, trapWord g vec⟩ := by simp
  exact ⟨_, hs.step_of_unknown_trap (not_mem_serviceVectors hv) hword, latched, rfl, walk.pc, walk.reg, walk.flags,
    fun _ => rfl, ⟨rfl, rfl⟩, statusOf_of_latched latched hs.fetch_completed.2⟩

/-! ### The host operations -/

/-- Settles O43: a step of the latched machine is the identity, so Run's first step already returns the Fatal. -/
theorem latchedFaultIsSticky : Obligations.LatchedFaultIsSticky := by
  intro s f hf hw
  have sticky : step s = .next s := step_of_latched (by simp [hf])
  have status := statusOf_of_latched hf hw
  exact ⟨sticky, status, fun k hl => (hostRun_of_loaded hl hw _).trans (runLoop_of_fatal sticky status k),
    _, whenIdle_of_waiting_none hw _, rfl⟩

/-- Settles O45: the image flag alone decides, and LoadImage sets it. -/
theorem unloadedMachine : Obligations.UnloadedMachine := fun s hl hw =>
  ⟨hostRun_of_not_loaded hl hw, step_of_not_loaded hl hw, fun image k => ⟨_, whenIdle_of_waiting_none hw _,
    hostRun_of_loaded (s := { s with mem := Memory.ofImage image, loaded := true }) rfl hw k⟩⟩

/-- Settles O46: memory is the array's canonical list, and no other field but `loaded` is written. -/
theorem loadImageStoresArray : Obligations.LoadImageStoresArray := fun image _ hw =>
  ⟨_, whenIdle_of_waiting_none hw _, Memory.read_ofImage image, rfl, Memory.wf_ofImage image, fun _ => rfl, rfl, rfl,
    rfl, rfl, rfl, ⟨rfl, rfl⟩, rfl⟩

/-- Settles O60: a loaded array is canonical, Reset and Construct leave no fault, and the input is no part of the
invariant. -/
theorem hostOperationsKeepInvariant : Obligations.HostOperationsKeepInvariant := by
  refine ⟨fun image s t inv h => ?_, fun s t inv h => ?_, fun _ _ inv => { inv with }, fun _ _ inv => { inv with },
    fun _ _ hl => .of_no_fault reset_memWf hl rfl nofun⟩
  · obtain ⟨-, rfl⟩ := whenIdle_eq_next h
    exact { inv with memWf := Memory.wf_ofImage image }
  · obtain ⟨hw, rfl⟩ := whenIdle_eq_next h
    exact .of_no_fault inv.memWf (.inl rfl) rfl fun hs => by simp [resetFields, hw] at hs

end Sys2Proof
end

section
/-! SUPPORT and PROOFS of the operate instructions' statements (`41_operate.md`): how the decoder reads a word of their
common layout, what their shared body leaves, and the values of their results. -/

namespace Sys2Proof

open Sys2Proof.Machine

/-! ### Decoding -/

theorem bit_eq_extractLsb' (w : Word) (k : Nat) : bit w k = (w.extractLsb' k 1 == 1#1) :=
  BitVec.getLsbD_eq_extractLsb' w k

/-- The layout of ADD and AND (R83, R84): opcode, `DR`, `SR1`, bit 5, and the five bits that hold `SR2` or `imm5`. -/
def operateWord (op : BitVec 4) (dr sr1 : RegNum) (mode : BitVec 1) (low : BitVec 5) : Word :=
  op ++ dr ++ sr1 ++ mode ++ low

/-- Every field of the layout is the part appended at its place. -/
theorem operateWord_fields (op : BitVec 4) (dr sr1 : RegNum) (mode : BitVec 1) (low : BitVec 5) :
    bits (operateWord op dr sr1 mode low) 15 12 = op ∧ bits (operateWord op dr sr1 mode low) 11 9 = dr ∧
    bits (operateWord op dr sr1 mode low) 8 6 = sr1 ∧ bit (operateWord op dr sr1 mode low) 5 = (mode == 1#1) ∧
    bits (operateWord op dr sr1 mode low) 4 0 = low ∧
    bits (operateWord op dr sr1 mode low) 2 0 = low.extractLsb' 0 3 := by
  simp (disch := omega) [operateWord, bits, bit_eq_extractLsb', BitVec.extractLsb,
    BitVec.extractLsb'_append_eq_of_le, BitVec.extractLsb'_append_eq_of_add_le, -Nat.reduceAdd]

/-- In the register forms `SR2` is the low part of the five bits, below the two ignored ones. -/
theorem operateWord_register (op : BitVec 4) (dr sr1 sr2 : RegNum) (g : BitVec 2) :
    op ++ dr ++ sr1 ++ 0#1 ++ g ++ sr2 = operateWord op dr sr1 0#1 (g ++ sr2) := BitVec.append_assoc

theorem extractLsb'_low_register (g : BitVec 2) (sr2 : RegNum) : (g ++ sr2).extractLsb' 0 3 = sr2 := by
  rw [BitVec.extractLsb'_append_eq_of_add_le le_rfl, BitVec.extractLsb'_eq_self]

theorem decode_add (dr sr1 : RegNum) (mode : BitVec 1) (low : BitVec 5) :
    decode (operateWord 0x1#4 dr sr1 mode low) =
      if mode = 1#1 then .addImm dr sr1 low else .addReg dr sr1 (low.extractLsb' 0 3) := by
  simp [decode, operateWord_fields]

theorem decode_and (dr sr1 : RegNum) (mode : BitVec 1) (low : BitVec 5) :
    decode (operateWord 0x5#4 dr sr1 mode low) =
      if mode = 1#1 then .andImm dr sr1 low else .andReg dr sr1 (low.extractLsb' 0 3) := by
  simp [decode, operateWord_fields]

theorem decode_not (dr sr : RegNum) (g : BitVec 6) : decode (0x9#4 ++ dr ++ sr ++ g) = .notReg dr sr := by
  simp (disch := omega) [decode, bits, BitVec.extractLsb,
    BitVec.extractLsb'_append_eq_of_le, BitVec.extractLsb'_append_eq_of_add_le, -Nat.reduceAdd]

namespace Machine

/-! ### What an operate instruction leaves -/

/-- `operate_next` with the result read back from `x[DR]`, as the statements give it. -/
theorem operate_writes (dr : RegNum) (v : Word) (s : State) :
    ∃ t, operate dr v s = .next t ∧ t.reg dr = v ∧
      ResultWritten dr (t.reg dr) s t ∧ SameMem s t ∧ SamePorts s t := by
  obtain ⟨t, ht, hres, hmem, hports⟩ := operate_next dr v s
  have hreg : t.reg dr = v := hres.1
  exact ⟨t, ht, hreg, hreg.symm ▸ hres, hmem, hports⟩

/-! ### The values of the results -/

theorem sext_eq_ofInt {n : Nat} (f : BitVec n) (hn : n ≤ 16) : sext f = BitVec.ofInt 16 f.toInt := by
  rw [← sext_toInt f hn, BitVec.ofInt_toInt]

/-- A signed field is added with its signed value, mod 2^16 (R9, R93). -/
theorem add_sext_toNat {n : Nat} (x : Word) (f : BitVec n) (hn : n ≤ 16) :
    ((x + sext f).toNat : Int) = (x.toNat + f.toInt) % 65536 := by
  have sum : x + sext f = BitVec.ofInt 16 (x.toNat + f.toInt) := by
    rw [BitVec.ofInt_add, ← sext_eq_ofInt f hn, BitVec.ofInt_natCast, BitVec.ofNat_toNat, BitVec.setWidth_eq]
  rw [sum, BitVec.toNat_ofInt, Int.toNat_of_nonneg (Int.emod_nonneg _ (by decide))]
  rfl

/-- A sign-extended field repeats its top bit (R7, R93). -/
theorem sext_getLsbD {n : Nat} (f : BitVec (n + 1)) {k : Nat} (hk : k < 16) :
    (sext f).getLsbD k = f.getLsbD (min k n) := by
  rw [sext, BitVec.getLsbD_signExtend, decide_eq_true hk, Bool.true_and]
  split
  · next h => rw [Nat.min_eq_left (by omega)]
  · next h => rw [Nat.min_eq_right (by omega), BitVec.msb_eq_getLsbD_last, Nat.add_sub_cancel]

end Machine

/-! ### The statements -/

/-- Settles O11: the sum of two words is taken mod 2^16. -/
theorem addRegisterForm : Obligations.AddRegisterForm := by
  intro dr sr1 sr2 g s
  obtain ⟨t, ht, hv, hframe⟩ := operate_writes dr (s.reg sr1 + s.reg sr2) s
  refine ⟨?_, t, ht, by rw [hv, BitVec.toNat_add], hframe⟩
  rw [operateWord_register, decode_add, extractLsb'_low_register]
  exact if_neg (by decide)

/-- Settles O12: sign extension keeps the signed value of the immediate, and the sum is taken mod 2^16. -/
theorem addImmediateForm : Obligations.AddImmediateForm := by
  intro dr sr1 imm s
  obtain ⟨t, ht, hv, hframe⟩ := operate_writes dr (s.reg sr1 + sext imm) s
  refine ⟨(decode_add dr sr1 1#1 imm).trans (if_pos rfl), t, ht, ?_, hframe⟩
  rw [hv, add_sext_toNat _ imm (by decide)]

/-- Settles O13: the and of two words is the and of their bits. -/
theorem andRegisterForm : Obligations.AndRegisterForm := by
  intro dr sr1 sr2 g s
  obtain ⟨t, ht, hv, hframe⟩ := operate_writes dr (s.reg sr1 &&& s.reg sr2) s
  refine ⟨?_, t, ht, fun k _ => by rw [hv, BitVec.getLsbD_and, Bool.and_eq_true], hframe⟩
  rw [operateWord_register, decode_and, extractLsb'_low_register]
  exact if_neg (by decide)

/-- Settles O14: the immediate's bits from 4 on are its sign bit in the sign-extended word. -/
theorem andImmediateForm : Obligations.AndImmediateForm := by
  intro dr sr1 imm s
  obtain ⟨t, ht, hv, hframe⟩ := operate_writes dr (s.reg sr1 &&& sext imm) s
  refine ⟨(decode_and dr sr1 1#1 imm).trans (if_pos rfl), t, ht, fun k hk => ?_, hframe⟩
  rw [hv, BitVec.getLsbD_and, sext_getLsbD imm hk, Bool.and_eq_true]

/-- Settles O15: the complement of a word is its distance from 0xFFFF. -/
theorem notForm : Obligations.NotForm := by
  intro dr sr g s
  obtain ⟨t, ht, hv, hframe⟩ := operate_writes dr (~~~ s.reg sr) s
  exact ⟨decode_not dr sr g, t, ht, by rw [hv, BitVec.toNat_not], hframe⟩

end Sys2Proof
end

section
/-! SUPPORT and PROOFS of the load and store instructions' statements (`42_loads_stores.md`): their words are the
encoder's, and an indirect one is the shared body after its pointer read, which only moves the input on. -/

namespace Sys2Proof

open Sys2Proof.Machine

/-! ### Decoding -/

theorem decode_of_eq_encode {w : Word} {i : Instr} (hw : w = encode i) (hi : i.wellFormed = true) : decode w = i :=
  hw ▸ decodeEncodeRoundTrip i hi

/-- The layout of LDR and STR (R87): the encoder appends the opcode last. -/
theorem baseOffset_layout (op : BitVec 4) (r base : RegNum) (off : BitVec 6) :
    op ++ r ++ base ++ off = (op ++ (r ++ base ++ off) : Word) :=
  (congrArg (· ++ off) (BitVec.append_assoc (x₁ := op) (x₂ := r) (x₃ := base))).trans BitVec.append_assoc

namespace Machine

/-! ### Frames after a read -/

@[simp] theorem sameRegs_memRead {a : Word} {s t : State} : SameRegs (memRead a s).2 t ↔ SameRegs s t := by
  simp [SameRegs]

@[simp] theorem sameControl_memRead {a : Word} {s t : State} : SameControl (memRead a s).2 t ↔ SameControl s t := by
  simp [SameControl, SameSetup]

@[simp] theorem resultWritten_memRead {dr : RegNum} {a v : Word} {s t : State} :
    ResultWritten dr v (memRead a s).2 t ↔ ResultWritten dr v s t := by
  simp [ResultWritten, SameRegsBut]

/-! ### What a load leaves -/

/-- `loadFrom_next`, and a read writes nothing to the output. -/
theorem loadFrom_writes (dr : RegNum) (ea : Word) (s : State) :
    ∃ t, loadFrom dr ea s = .next t ∧ ResultWritten dr (memRead ea s).1 s t ∧ SameMem (memRead ea s).2 t ∧
      SamePorts (memRead ea s).2 t ∧ t.output = s.output := by
  obtain ⟨t, ht, hres, hmem, hin, hout⟩ := loadFrom_next dr ea s
  exact ⟨t, ht, hres, hmem, ⟨hin, hout⟩, hout.trans (memRead_output ea s)⟩

/-! ### The value of a pc-relative address -/

/-- The offset is added with its signed value to the pc after the fetch, mod 2^16 (R140). -/
theorem pcRelative_toNat {n : Nat} (off : BitVec n) (hn : n ≤ 16) (s : State) :
    ((pcRelative off s).toNat : Int) = (s.pc.toNat + 1 + off.toInt) % 65536 := by
  have npc : (s.npc.toNat : Int) = (s.pc.toNat + 1) % 65536 := by simp [State.npc]
  rw [pcRelative, add_sext_toNat _ off hn, npc, Int.emod_add_emod]

end Machine

/-! ### The statements -/

/-- Settles O17: the data read starts from the state the pointer read leaves, which has the registers, the pc, the
output and the control state of the first one. -/
theorem loadIndirect : Obligations.LoadIndirect := by
  intro dr off s
  obtain ⟨t, ht, hres, hmem, hports, hout⟩ := loadFrom_writes dr (indirect off s).1 (indirect off s).2
  exact ⟨decode_of_eq_encode BitVec.append_assoc rfl, t, ht, resultWritten_memRead.1 hres, hmem, hports,
    hout.trans (memRead_output _ s)⟩

/-- Settles O21: the pointer read leaves the register to store, and everything a store leaves alone but the input and
its latch. -/
theorem storeIndirect : Obligations.StoreIndirect := by
  intro sr off s
  obtain ⟨t, ht, hstored⟩ := storeTo_next sr (indirect off s).1 (indirect off s).2
  have source : (indirect off s).2.reg sr = s.reg sr := memRead_reg _ s sr
  rw [source] at hstored
  have ⟨_, _, hregs, hflags, hpc, ⟨_, hout⟩, hcontrol⟩ := hstored
  exact ⟨decode_of_eq_encode BitVec.append_assoc rfl, t, ht, hstored, sameRegs_memRead.1 hregs,
    hflags.trans (memRead_flags _ s), hpc.trans (congrArg (· + 1#16) (memRead_pc _ s)),
    hout.trans (memRead_output _ s), sameControl_memRead.1 hcontrol⟩

/-- Settles O16: LD is the shared load at its pc-relative address. -/
theorem loadPcRelative : Obligations.LoadPcRelative := fun dr off s =>
  ⟨decode_of_eq_encode BitVec.append_assoc rfl, loadFrom_writes dr (pcRelative off s) s⟩

/-- Settles O18: LDR is the shared load at its base plus offset, computed before the read. -/
theorem loadBaseOffset : Obligations.LoadBaseOffset := fun dr base off s =>
  ⟨decode_of_eq_encode (baseOffset_layout _ dr base off) rfl, loadFrom_writes dr (baseOffset base off s) s⟩

/-- Settles O19: LEA writes its address as an operate instruction writes its result. -/
theorem loadEffectiveAddress : Obligations.LoadEffectiveAddress := by
  intro dr off s
  obtain ⟨t, ht, hv, hframe⟩ := operate_writes dr (pcRelative off s) s
  exact ⟨decode_of_eq_encode BitVec.append_assoc rfl, t, ht, by rw [hv, pcRelative_toNat off (by decide)], hframe⟩

/-- Settles O20: ST is the shared store at its pc-relative address. -/
theorem storePcRelative : Obligations.StorePcRelative := fun sr off s =>
  ⟨decode_of_eq_encode BitVec.append_assoc rfl, storeTo_next sr (pcRelative off s) s⟩

/-- Settles O22: STR is the shared store at its base plus offset. -/
theorem storeBaseOffset : Obligations.StoreBaseOffset := fun sr base off s =>
  ⟨decode_of_eq_encode (baseOffset_layout _ sr base off) rfl, storeTo_next sr (baseOffset base off s) s⟩

end Sys2Proof
end

section
/-! SUPPORT and PROOFS of the control transfers' and placeholders' statements (`43_control.md`): their words, the commit
of a target, and the link that JSR and JSRR leave before it. -/

namespace Sys2Proof

open Sys2Proof.Machine

/-! ### Decoding -/

/-- The layout of BR (R88): opcode, the three condition bits, and the offset. -/
theorem decode_br (n z p : Bool) (off : BitVec 9) :
    decode (0x0#4 ++ BitVec.ofBool n ++ BitVec.ofBool z ++ BitVec.ofBool p ++ off) = .br n z p off := by
  simp (disch := omega) [decode, bits, bit_eq_extractLsb', BitVec.extractLsb, BitVec.extractLsb'_append_eq_of_le,
    BitVec.extractLsb'_append_eq_of_add_le, ofBool_beq_one, -Nat.reduceAdd]

/-- The layout of JMP and JSRR (R89, R90): opcode, three bits, `BaseR`, and six ignored bits. Bit 11, the top one of the
three, tells JSRR from JSR; JMP ignores it. -/
theorem baseWord_fields (op : BitVec 4) (high : BitVec 3) (base : RegNum) (low : BitVec 6) :
    bits (op ++ high ++ base ++ low) 15 12 = op ∧ bit (op ++ high ++ base ++ low) 11 = (high.extractLsb' 2 1 == 1#1) ∧
    bits (op ++ high ++ base ++ low) 8 6 = base := by
  simp (disch := omega) [bits, bit_eq_extractLsb', BitVec.extractLsb, BitVec.extractLsb'_append_eq_of_le,
    BitVec.extractLsb'_append_eq_of_add_le, -Nat.reduceAdd]

/-- In JSRR's word the three bits are bit 11 and two ignored ones. -/
theorem extractLsb'_top_bit (mode : BitVec 1) (ign : BitVec 2) : (mode ++ ign).extractLsb' 2 1 = mode := by
  rw [BitVec.extractLsb'_append_eq_of_le le_rfl, BitVec.extractLsb'_eq_self]

theorem decode_jmp (high : BitVec 3) (base : RegNum) (low : BitVec 6) :
    decode (0xC#4 ++ high ++ base ++ low) = .jmp base := by
  simp [decode, baseWord_fields]

theorem decode_jsrr (ign : BitVec 2) (base : RegNum) (low : BitVec 6) :
    decode (0x4#4 ++ (0#1 ++ ign) ++ base ++ low) = .jsrr base := by
  simp [decode, baseWord_fields, extractLsb'_top_bit]

theorem decode_rti (g : BitVec 12) : decode (0x8#4 ++ g) = .rti := by simp [decode, bits_opcode]

theorem decode_res (g : BitVec 12) : decode (0xD#4 ++ g) = .res := by simp [decode, bits_opcode]

namespace Machine

/-! ### What a transfer leaves -/

/-- A commit writes the pc and nothing else (R116). -/
theorem commit_onlyPcChanged (target : Word) (s : State) : OnlyPcChanged target s (commit target s) :=
  ⟨rfl, fun _ => rfl, rfl, fun _ => rfl, ⟨rfl, rfl⟩, rfl, rfl, rfl, rfl, rfl⟩

/-- The frame of a register write with a commit: every other register, the flags, memory, the ports and the control
state. -/
theorem commit_setReg_frame (target : Word) (r : RegNum) (v : Word) (s : State) :
    SameRegsBut r s (commit target (s.setReg r v)) ∧ (commit target (s.setReg r v)).flags = s.flags ∧
      SameMem s (commit target (s.setReg r v)) ∧ SamePorts s (commit target (s.setReg r v)) ∧
      SameControl s (commit target (s.setReg r v)) :=
  ⟨fun _ hq => setReg_reg_of_ne s v hq, rfl, fun _ => rfl, ⟨rfl, rfl⟩, rfl, rfl, rfl, rfl, rfl⟩

theorem branchTaken_iff {n z p : Bool} {f : Flags} : branchTaken n z p f = true ↔
    (n = true ∧ f.n = true) ∨ (z = true ∧ f.z = true) ∨ (p = true ∧ f.p = true) := by
  simp [branchTaken, or_assoc]

end Machine

/-! ### The statements -/

/-- Settles O23: BR commits to the one or the other target by its condition on the flags. -/
theorem branchOnFlags : Obligations.BranchOnFlags := by
  intro n z p off s
  refine ⟨decode_br n z p off, _, rfl, ?_⟩
  simp only [← branchTaken_iff]
  exact commit_onlyPcChanged _ s

/-- Settles O24: JMP commits to the base register. -/
theorem jumpToRegister : Obligations.JumpToRegister := fun base high low s =>
  ⟨decode_jmp high base low, _, rfl, commit_onlyPcChanged (s.reg base) s⟩

/-- Settles O25: the target is a pc-relative address, which the link does not change. -/
theorem subroutineCallPcRelative : Obligations.SubroutineCallPcRelative := fun off s =>
  ⟨decode_of_eq_encode BitVec.append_assoc rfl, _, rfl, setReg_reg_self s linkReg s.npc,
    pcRelative_toNat off (by decide) s, commit_setReg_frame (pcRelative off s) linkReg s.npc s⟩

/-- Settles O26: the base is read after the link is written, so it is the link itself when it is `x[7]`. -/
theorem subroutineCallRegister : Obligations.SubroutineCallRegister := by
  intro base ign low s
  have layout : 0x4#4 ++ 0#1 ++ ign = 0x4#4 ++ (0#1 ++ ign) := BitVec.append_assoc
  exact ⟨layout ▸ decode_jsrr ign base low, _, rfl, setReg_reg_self s linkReg s.npc, setReg_reg s linkReg base s.npc,
    commit_setReg_frame _ linkReg s.npc s⟩

/-- Settles O27: each placeholder is the commit to `pc + 1`, whatever its operand bits. -/
theorem placeholdersAreNoOperations : Obligations.PlaceholdersAreNoOperations :=
  ⟨fun g => ⟨decode_rti g, decode_res g⟩,
    fun s => ⟨⟨_, rfl, commit_onlyPcChanged s.npc s⟩, _, rfl, commit_onlyPcChanged s.npc s⟩⟩

end Sys2Proof
end

section
/-! SUPPORT and PROOFS of TRAP's and the services' statements (`44_trap.md`): the words and the dispatch of TRAP, what an
output service leaves, and the string walks as the loops of R186 and R188. -/

namespace Sys2Proof

open Sys2Proof.Machine

/-! ### The dispatch -/

/-- A TRAP word decodes by its vector, whatever its bits 11:8 (R91, R180). -/
theorem decode_trapWord (ign : BitVec 4) (vec : BitVec 8) : decode (trapWord ign vec) = decodeTrap ign vec := by
  have encoded : trapWord ign vec = encode (.trap ign vec) := BitVec.append_assoc
  rw [encoded, decode_encode]
  rfl

namespace Machine

/-! ### What OUT and HALT leave -/

/-- Characters sent and the commit are the whole of an output service's effect. -/
theorem advance_outWriteAll (cs : List Character) (s : State) :
    CharactersWritten cs s (advance (outWriteAll cs s)) :=
  ⟨rfl, rfl, rfl, fun _ => rfl, rfl, fun _ => rfl, rfl, rfl, rfl, rfl, rfl⟩

theorem exec_out (s : State) :
    exec .out s = .next (advance (outWriteAll [(s.reg 0#3).extractLsb 7 0] s)) := rfl

theorem exec_halt (s : State) : exec .halt s = .next (advance { s with runState := .stopped }) := rfl

end Machine

/-- Settles O34: OUT is one character sent and the commit. -/
theorem outWritesLowByte : Obligations.OutWritesLowByte := fun s =>
  ⟨_, exec_out s, advance_outWriteAll _ s⟩

/-- Settles O39: HALT writes RunState and commits. -/
theorem haltStops : Obligations.HaltStops := fun s =>
  ⟨_, exec_halt s, rfl, rfl, fun _ => rfl, rfl, fun _ => rfl, ⟨rfl, rfl⟩, rfl, rfl, rfl, rfl⟩

/-- Settles O28: the decoder and `exec` compare the vector with the same six, and each of them is found. -/
theorem trapSelectsService : Obligations.TrapSelectsService := by
  refine ⟨fun g => ⟨decode_trapWord g _, decode_trapWord g _, decode_trapWord g _, decode_trapWord g _,
    decode_trapWord g _, decode_trapWord g _⟩, fun g s => ⟨rfl, rfl, rfl, rfl, rfl, rfl, outWritesLowByte s, ?_⟩⟩
  obtain ⟨t, ht, hrun, hpc, hregs, hflags, hmem, hports, -⟩ := haltStops s
  exact ⟨t, ht, hrun, hpc, hregs, hflags, hmem, hports⟩

/-- Settles O29: a vector outside 0x20..0x25 names no service, so the word is a plain TRAP, which takes the fatal path. -/
theorem unknownVectorLatchesFault : Obligations.UnknownVectorLatchesFault := by
  intro g vec s h
  have noService := not_mem_serviceVectors h
  exact ⟨decode_trapWord_of_not_service noService, _, exec_trap_of_not_service noService s, rfl, rfl, rfl,
    fun _ => rfl, rfl, fun _ => rfl, ⟨rfl, rfl⟩, rfl, rfl, rfl⟩

/-! ### GETC and IN -/

/-- Settles O30: GETC is the blocking read, which has its character and echoes nothing. -/
theorem getcReadsCharacter : Obligations.GetcReadsCharacter := by
  intro s c rest h
  obtain ⟨hread, hout⟩ := characterRead_of_nextCharIs h .getc
  exact ⟨blockingRead .getc s, rfl, hread, hout.trans (List.append_nil _)⟩

/-- Settles O31: IN is the blocking read after the prompt, which changes the output only. -/
theorem inPromptsReadsEchoes : Obligations.InPromptsReadsEchoes := by
  intro s c rest h
  have prompted : NextCharIs (outWriteAll s.inPrompt s) c rest := h
  obtain ⟨hread, hout⟩ := characterRead_of_nextCharIs prompted .in_
  exact ⟨blockingRead .in_ (outWriteAll s.inPrompt s), rfl, hread, hout⟩

end Sys2Proof

/-! ### How far a walk is from the input-status register -/

namespace Sys2Proof.Machine

/-- How many words a walk at `a` reads before the one at `KBSR_ADDR`. -/
def untilStatus (a : Word) : Nat := (kbsrAddr - a).toNat

theorem untilStatus_lt (a : Word) : untilStatus a < 65536 := (kbsrAddr - a).isLt

theorem untilStatus_next {a : Word} (h : a ≠ kbsrAddr) : untilStatus (a + 1#16) + 1 = untilStatus a := by
  unfold untilStatus
  unfold kbsrAddr at *
  bv_omega

theorem untilStatus_after_status : untilStatus (kbsrAddr + 1#16) = 65535 := rfl

theorem add_untilStatus (a : Word) : a + BitVec.ofNat 16 (untilStatus a) = kbsrAddr := by
  rw [untilStatus, BitVec.ofNat_toNat, BitVec.setWidth_eq, BitVec.add_comm, BitVec.sub_add_cancel]

/-! ### Strings in memory -/

/-- A string that does not cross the input-status register is shorter than memory. -/
theorem StoredAt.length_le {s : State} {a : Word} {ws : List Word} (h : StoredAt s a ws) :
    ws.length ≤ untilStatus a := by
  by_contra hlong
  exact (h (untilStatus a) (by omega)).1 (add_untilStatus a)

/-- The first word of a string is what is read at its address, and the others stand after it. -/
theorem StoredAt.of_cons {s : State} {a w : Word} {ws : List Word} (h : StoredAt s a (w :: ws)) :
    memRead a s = (w, s) ∧ StoredAt s (a + 1#16) ws := by
  constructor
  · obtain ⟨hk, hw⟩ := h 0 (by simp)
    rw [BitVec.add_zero] at hk hw
    rw [memRead_plain s hk, hw, List.getElem_cons_zero]
  · intro k hk
    rw [BitVec.add_assoc, ← BitVec.ofNat_add, Nat.add_comm]
    exact h (k + 1) (Nat.succ_lt_succ hk)

/-- One call of `step` walks at least to the input-status register. -/
theorem lt_walkBound (a : Word) (s : State) : untilStatus a < walkBound s := by
  have := untilStatus_lt a
  unfold walkBound
  omega

theorem StoredAt.length_lt_walkBound {s : State} {a last : Word} {ws : List Word} (h : StoredAt s a (ws ++ [last])) :
    ws.length < walkBound s := by
  have hlen := h.length_le
  have hbound := lt_walkBound a s
  rw [List.length_append] at hlen
  omega

/-! ### What a walk keeps to its break -/

theorem Walked.loop_frame {s u : State} (h : Walked s u) :
    SameRegs s u ∧ u.flags = s.flags ∧ SameControl s u ∧ SameMemBut kbdrAddr s u :=
  ⟨h.reg, h.flags, ⟨h.runState, h.fault, h.waiting, h.loaded, h.inPrompt⟩, h.word⟩

theorem Walked.advance_eq {s u : State} (h : Walked s u) : advance u = { u with pc := s.pc + 1#16 } := by
  rw [← h.pc]
  rfl

/-! ### The walk of PUTS -/

section

variable {a : Word} {s : State} {fuel : Nat}

theorem putsLoop_of_zero (h : (memRead a s).1 = 0#16) : putsLoop (fuel + 1) a s = advance (memRead a s).2 := by
  simp [putsLoop, h]

theorem putsLoop_of_ne_zero (h : (memRead a s).1 ≠ 0#16) :
    putsLoop (fuel + 1) a s = putsLoop fuel (a + 1#16) (outWrite (lowByte (memRead a s).1) (memRead a s).2) := by
  simp [putsLoop, h]

end

/-- A string in memory is sent to its end, if the walk may be longer than the string (R186). -/
theorem putsLoop_of_storedAt {ws : List Word} {a : Word} {s : State} {fuel : Nat}
    (h : StoredAt s a (ws ++ [0#16])) (hne : ∀ w ∈ ws, w ≠ 0#16) (hfuel : ws.length < fuel) :
    putsLoop fuel a s = advance (outWriteAll (ws.map lowByte) s) := by
  induction fuel generalizing a s ws with
  | zero => exact absurd hfuel (Nat.not_lt_zero _)
  | succ fuel ih =>
    cases ws with
    | nil =>
      obtain ⟨read, -⟩ := h.of_cons
      rw [putsLoop_of_zero (by rw [read]), read]
      exact congrArg advance (outWriteAll_nil s).symm
    | cons w ws =>
      obtain ⟨read, hrest⟩ := h.of_cons
      obtain ⟨hw, hne⟩ := List.forall_mem_cons.1 hne
      rw [putsLoop_of_ne_zero (by rwa [read]), read,
        ih (s := outWrite (lowByte w) s) hrest hne (Nat.lt_of_succ_lt_succ hfuel)]
      simp [outWriteAll, outWrite]

theorem PutsLoopEnds.walked {a : Word} {s t : State} (h : PutsLoopEnds a s t) : Walked s t := by
  induction h with
  | zeroWord a s => exact .memRead a s
  | nextWord a s t _ _ ih => exact (Walked.word_read a s [_]).trans ih

theorem PutsLoopGoesOn.walked {n : Nat} {a : Word} {s t : State} (h : PutsLoopGoesOn n a s t) : Walked s t := by
  induction h with
  | start a s => exact .refl s
  | nextWord n a s t _ _ ih => exact (Walked.word_read a s [_]).trans ih

/-- The model's walk is the loop of R186, to its break or as far as the walk may go. -/
theorem putsLoop_runs (fuel : Nat) (a : Word) (s : State) :
    (∃ u, PutsLoopEnds a s u ∧ putsLoop fuel a s = advance u) ∨
    ∃ u, PutsLoopGoesOn fuel a s u ∧
      putsLoop fuel a s = { u with waiting := some (.puts (a + BitVec.ofNat 16 fuel)) } := by
  induction fuel generalizing a s with
  | zero => exact .inr ⟨s, .start a s, by simp [putsLoop]⟩
  | succ fuel ih =>
    by_cases hw : (memRead a s).1 = 0#16
    · exact .inl ⟨_, .zeroWord a s hw, putsLoop_of_zero hw⟩
    · rw [putsLoop_of_ne_zero hw]
      rcases ih (a + 1#16) (outWrite (lowByte (memRead a s).1) (memRead a s).2) with ⟨u, hu, h⟩ | ⟨u, hu, h⟩
      · exact .inl ⟨u, .nextWord a s u hw hu, h⟩
      · refine .inr ⟨u, .nextWord fuel a s u hw hu, ?_⟩
        rw [h, BitVec.add_assoc, Nat.add_comm fuel, BitVec.ofNat_add]

theorem putsFrom_runs (a : Word) (s : State) : PutsRuns a s (putsFrom a s) := by
  rcases putsLoop_runs (walkBound s) a s with ⟨u, hu, h⟩ | ⟨u, hu, h⟩
  · exact .inl ⟨u, hu, h.trans hu.walked.advance_eq⟩
  · exact .inr ⟨walkBound s, u, by unfold walkBound; omega, hu, h⟩

/-- What one call of `step` has kept, whether the walk met its break or goes on. -/
theorem PutsRuns.frame {a : Word} {s t : State} (h : PutsRuns a s t) :
    SameRegs s t ∧ t.flags = s.flags ∧ SameMemBut kbdrAddr s t := by
  obtain ⟨u, hu, rfl⟩ | ⟨n, u, -, hu, rfl⟩ := h
  all_goals exact ⟨hu.walked.reg, hu.walked.flags, hu.walked.word⟩

/-! ### Finite input ends a string -/

theorem next_of_silent {i rest : InputSource} {e : InputEvent} (hs : i.tail = .silent)
    (h : i.next = some (e, rest)) : rest.tail = .silent ∧ rest.listed.length + 1 = i.listed.length := by
  obtain ⟨_ | ⟨d, l⟩, tail⟩ := i <;> cases hs <;> cases h
  exact ⟨rfl, rfl⟩

/-- A status read that is not 0 has used up a character, a listed one if none comes after the list (R54). -/
theorem memRead_kbsr_of_silent {s : State} (hs : s.input.tail = .silent) (hw : (memRead kbsrAddr s).1 ≠ 0#16) :
    (memRead kbsrAddr s).2.input.tail = .silent ∧
      (memRead kbsrAddr s).2.input.listed.length + 1 = s.input.listed.length := by
  rcases memRead_cases kbsrAddr s with ⟨hk, -⟩ | ⟨-, -, h⟩ | ⟨rest, -, -, h⟩ | ⟨c, rest, -, hc, h⟩
  · exact absurd rfl hk
  · exact absurd (congrArg Prod.fst h) hw
  · exact absurd (congrArg Prod.fst h) hw
  · rw [h]
    exact next_of_silent hs hc

/-- With finite input the loop passes the status register once for each listed answer at the most (R54, R186). -/
theorem PutsLoopGoesOn.le_of_silent {n : Nat} {a : Word} {s t : State} (h : PutsLoopGoesOn n a s t)
    (hs : s.input.tail = .silent) : n ≤ 65536 * s.input.listed.length + untilStatus a := by
  induction h with
  | start a s => exact Nat.zero_le _
  | nextWord n a s t hw _ ih =>
    by_cases ha : a = kbsrAddr
    · subst ha
      obtain ⟨htail, hlen⟩ := memRead_kbsr_of_silent hs hw
      have hn := ih htail
      rw [untilStatus_after_status, outWrite_input] at hn
      omega
    · simp only [memRead_plain s ha, outWrite_input] at ih
      have hn := ih hs
      have hnext := untilStatus_next ha
      omega

theorem putsFrom_of_silent (a : Word) {s : State} (hs : s.input.tail = .silent) :
    ∃ u, PutsLoopEnds a s u ∧ putsFrom a s = advance u := by
  rcases putsLoop_runs (walkBound s) a s with h | ⟨u, hu, -⟩
  · exact h
  · have hle := hu.le_of_silent hs
    have hlt := untilStatus_lt a
    unfold walkBound at hle
    omega

/-! ### A string that never ends -/

/-- No word that is read is 0, and there is a non-zero character at every query for ever (R216). -/
structure NothingZero (s : State) : Prop where
  input : s.input.NeverEnds
  word : ∀ a, a ≠ kbsrAddr → s.word a ≠ 0#16

theorem InputSource.NeverEnds.rest {i rest : InputSource} {e : InputEvent} (h : i.NeverEnds)
    (hi : i.next = some (e, rest)) : rest.NeverEnds := by
  intro k
  simpa only [InputSource.after, hi] using h (k + 1)

theorem zext_ne_zero {c : Character} (h : c ≠ 0#8) : zext c ≠ 0#16 := by
  intro hz
  apply h
  rw [← BitVec.toNat_inj, ← zext_toNat, hz]
  rfl

/-- Then every read answers a word other than 0, and what it latches is none either. -/
theorem NothingZero.after_memRead {s : State} (h : NothingZero s) (a : Word) :
    (memRead a s).1 ≠ 0#16 ∧ NothingZero (memRead a s).2 := by
  by_cases ha : a = kbsrAddr
  · subst ha
    obtain ⟨c, rest, hc, hne⟩ := h.input 0
    rw [memRead_kbsr_of_char hc]
    refine ⟨(by decide : charAvailable ≠ 0#16), h.input.rest hc, fun b hb => ?_⟩
    change (State.setWord _ kbdrAddr (zext c)).word b ≠ 0#16
    rw [setWord_word]
    split
    · exact zext_ne_zero hne
    · exact h.word b hb
  · rw [memRead_plain s ha]
    exact ⟨h.word a ha, h⟩

theorem PutsLoopEnds.not_nothingZero {a : Word} {s t : State} (h : PutsLoopEnds a s t) : ¬ NothingZero s := by
  induction h with
  | zeroWord a s hw => exact fun hs => (hs.after_memRead a).1 hw
  | nextWord a s t _ _ ih => exact fun hs => ih { (hs.after_memRead a).2 with }

theorem PutsLoopGoesOn.nothingZero {n : Nat} {a : Word} {s t : State} (h : PutsLoopGoesOn n a s t)
    (hs : NothingZero s) : NothingZero t := by
  induction h with
  | start a s => exact hs
  | nextWord n a s t _ _ ih => exact ih { (hs.after_memRead a).2 with }

/-- A machine inside a PUTS that never ends. -/
structure Endless (s : State) : Prop where
  fault : s.fault = none
  waiting : ∃ a, s.waiting = some (.puts a)
  nothingZero : NothingZero s

theorem putsFrom_endless (a : Word) {s : State} (hf : s.fault = none) (hs : NothingZero s) :
    Endless (putsFrom a s) := by
  rcases putsFrom_runs a s with ⟨u, hu, -⟩ | ⟨n, u, -, hu, h⟩
  · exact absurd hs hu.not_nothingZero
  · rw [h]
    exact ⟨hu.walked.fault.trans hf, ⟨_, rfl⟩, { hu.nothingZero hs with }⟩

theorem Endless.finishStep_eq {s : State} (h : Endless s) : finishStep s = s := by
  obtain ⟨a, hw⟩ := h.waiting
  exact finishStep_of_not_completed (by simp [Completed, hw])

theorem Endless.step_next {s : State} (h : Endless s) : ∃ t, step s = .next t ∧ Endless t := by
  obtain ⟨a, hw⟩ := h.waiting
  have goesOn : Endless (resumeService (.puts a) s) :=
    putsFrom_endless a (s := { s with waiting := none }) h.fault { h.nothingZero with }
  exact ⟨_, by rw [step_of_suspended h.fault hw, goesOn.finishStep_eq], goesOn⟩

/-- The loop of Run goes on after a step that leaves its service suspended. -/
theorem runLoop_of_suspended {s t : State} (hstep : step s = .next t) (hw : t.waiting.isSome = true) (k : Nat) :
    runLoop (k + 1) s = runLoop k t := by
  simp [runLoop, hstep, statusOf, hw]

theorem Endless.waiting_isSome {s : State} (h : Endless s) : s.waiting.isSome = true := by
  obtain ⟨a, hw⟩ := h.waiting
  simp [hw]

theorem runLoop_of_step_endless {s t : State} (hstep : step s = .next t) (ht : Endless t) (k : Nat) :
    ∃ u, runLoop k s = .going u := by
  induction k generalizing s t with
  | zero => exact ⟨s, rfl⟩
  | succ k ih =>
    obtain ⟨u, hu, hend⟩ := ht.step_next
    rw [runLoop_of_suspended hstep ht.waiting_isSome]
    exact ih hu hend

/-- A ready machine whose PUTS never ends is inside it after one step. -/
theorem Ready.step_of_endless_puts {s : State} (hs : Ready s) (hd : decode (fetch (beginStep s)).1 = .puts)
    (hz : NothingZero (fetch (beginStep s)).2) : ∃ t, step s = .next t ∧ Endless t := by
  have endless := putsFrom_endless ((fetch (beginStep s)).2.reg serviceReg) hs.fetch_completed.1 hz
  have hputs : exec (decode (fetch (beginStep s)).1) (fetch (beginStep s)).2 =
      .next (putsFrom ((fetch (beginStep s)).2.reg serviceReg) (fetch (beginStep s)).2) := by
    rw [hd]
    rfl
  exact ⟨_, by rw [step_of_exec hs hputs, endless.finishStep_eq], endless⟩

/-! ### The walk of PUTSP -/

section

variable {a : Word} {s : State} {fuel : Nat}

theorem putspLoop_of_zero_low (h : lowByte (memRead a s).1 = 0#8) :
    putspLoop (fuel + 1) a s = advance (memRead a s).2 := by
  simp [putspLoop, h]

theorem putspLoop_of_zero_high (hlo : lowByte (memRead a s).1 ≠ 0#8) (hhi : highByte (memRead a s).1 = 0#8) :
    putspLoop (fuel + 1) a s = advance (outWrite (lowByte (memRead a s).1) (memRead a s).2) := by
  simp [putspLoop, hlo, hhi]

theorem putspLoop_of_ne_zero (hlo : lowByte (memRead a s).1 ≠ 0#8) (hhi : highByte (memRead a s).1 ≠ 0#8) :
    putspLoop (fuel + 1) a s = putspLoop fuel (a + 1#16)
      (outWrite (highByte (memRead a s).1) (outWrite (lowByte (memRead a s).1) (memRead a s).2)) := by
  simp [putspLoop, hlo, hhi]

end

/-- What is sent of the word that ends a packed string: its low byte, unless that is the zero byte (R188). -/
def lastCharacters (w : Word) : List Character := if lowByte w = 0#8 then [] else [lowByte w]

/-- A packed string in memory is sent to its end, if the walk may be longer than the string (R188). -/
theorem putspLoop_of_storedAt {ws : List Word} {last a : Word} {s : State} {fuel : Nat}
    (h : StoredAt s a (ws ++ [last])) (hne : ∀ w ∈ ws, lowByte w ≠ 0#8 ∧ highByte w ≠ 0#8)
    (hlast : lowByte last = 0#8 ∨ highByte last = 0#8) (hfuel : ws.length < fuel) :
    putspLoop fuel a s =
      advance (outWriteAll ((ws.flatMap fun w => [lowByte w, highByte w]) ++ lastCharacters last) s) := by
  induction fuel generalizing a s ws with
  | zero => exact absurd hfuel (Nat.not_lt_zero _)
  | succ fuel ih =>
    cases ws with
    | nil =>
      obtain ⟨read, -⟩ := h.of_cons
      by_cases hlo : lowByte last = 0#8
      · rw [putspLoop_of_zero_low (by rwa [read]), read]
        simp [lastCharacters, hlo, outWriteAll]
      · rw [putspLoop_of_zero_high (by rwa [read]) (by rw [read]; exact hlast.resolve_left hlo), read]
        simp [lastCharacters, hlo, outWriteAll, outWrite]
    | cons w ws =>
      obtain ⟨read, hrest⟩ := h.of_cons
      obtain ⟨⟨hlo, hhi⟩, hne⟩ := List.forall_mem_cons.1 hne
      rw [putspLoop_of_ne_zero (by rwa [read]) (by rwa [read]), read,
        ih (s := outWrite (highByte w) (outWrite (lowByte w) s)) hrest hne (Nat.lt_of_succ_lt_succ hfuel)]
      simp [outWriteAll, outWrite]

theorem PutspLoopEnds.walked {a : Word} {s t : State} (h : PutspLoopEnds a s t) : Walked s t := by
  induction h with
  | zeroLow a s => exact .memRead a s
  | zeroHigh a s => exact .word_read a s [_]
  | nextWord a s t _ _ _ ih =>
    refine Walked.trans (.word_read a s [(memRead a s).1.extractLsb 7 0, (memRead a s).1.extractLsb 15 8]) ?_
    simpa [outWriteAll, outWrite] using ih

theorem memRead_kbsr_eq_or (s : State) : (memRead kbsrAddr s).1 = 0#16 ∨ (memRead kbsrAddr s).1 = charAvailable := by
  rcases memRead_cases kbsrAddr s with ⟨hk, -⟩ | ⟨-, -, h⟩ | ⟨_, -, -, h⟩ | ⟨_, _, -, -, h⟩
  · exact absurd rfl hk
  · exact .inl (congrArg Prod.fst h)
  · exact .inl (congrArg Prod.fst h)
  · exact .inr (congrArg Prod.fst h)

/-- A status read answers 0x0000 or 0x8000 (R56), so it ends a packed string. -/
theorem lowByte_memRead_kbsr (s : State) : lowByte (memRead kbsrAddr s).1 = 0#8 := by
  rcases memRead_kbsr_eq_or s with h | h <;> rw [h] <;> decide

/-- The model's walk is the loop of R188 to its break, which comes at the status register at the latest. -/
theorem putspLoop_ends {fuel : Nat} {a : Word} (h : untilStatus a < fuel) (s : State) :
    ∃ u, PutspLoopEnds a s u ∧ putspLoop fuel a s = advance u := by
  induction fuel generalizing a s with
  | zero => omega
  | succ fuel ih =>
    by_cases hlo : lowByte (memRead a s).1 = 0#8
    · exact ⟨_, .zeroLow a s hlo, putspLoop_of_zero_low hlo⟩
    by_cases hhi : highByte (memRead a s).1 = 0#8
    · exact ⟨_, .zeroHigh a s hlo hhi, putspLoop_of_zero_high hlo hhi⟩
    have ha : a ≠ kbsrAddr := by
      rintro rfl
      exact hlo (lowByte_memRead_kbsr s)
    have hnext := untilStatus_next ha
    rw [putspLoop_of_ne_zero hlo hhi]
    obtain ⟨u, hu, he⟩ := ih (a := a + 1#16) (by omega)
      (outWrite (highByte (memRead a s).1) (outWrite (lowByte (memRead a s).1) (memRead a s).2))
    exact ⟨u, .nextWord a s u hlo hhi hu, he⟩

end Sys2Proof.Machine

namespace Sys2Proof

open Sys2Proof.Machine

/-- Settles O35: the string is shorter than the walk may be, as it does not cross the status register. -/
theorem putsWritesString : Obligations.PutsWritesString := by
  intro s ws h hne
  exact ⟨_, congrArg Host.Outcome.next (putsLoop_of_storedAt h hne h.length_lt_walkBound), advance_outWriteAll _ s⟩

/-- Settles O37: as for PUTS, with the characters of the last word apart. -/
theorem putspWritesString : Obligations.PutspWritesString := by
  intro s ws last h hne hlast
  exact ⟨_, congrArg Host.Outcome.next (putspLoop_of_storedAt h hne hlast h.length_lt_walkBound),
    advance_outWriteAll _ s⟩

/-- Settles O38: the walk may pass as many words as there are to the status register. -/
theorem putspRunsItsLoop : Obligations.PutspRunsItsLoop := by
  intro s
  obtain ⟨u, hu, h⟩ := putspLoop_ends (lt_walkBound (s.reg 0#3) s) s
  exact ⟨u, hu, congrArg Host.Outcome.next (h.trans hu.walked.advance_eq), hu.walked.loop_frame⟩

/-- Settles O36: finite input bounds the walk, every walk is the loop to its break or as far as it may go, a resumed
step is the walk from the recorded address, and a loop that meets no zero word is suspended by every step of Run. -/
theorem putsRunsItsLoop : Obligations.PutsRunsItsLoop := by
  refine ⟨fun s hs => ?_, fun s => ?_, fun s a hf hw => ?_, fun s hs hd hin hmem k => ?_⟩
  · obtain ⟨u, hu, h⟩ := putsFrom_of_silent (s.reg 0#3) hs
    exact ⟨u, hu, congrArg Host.Outcome.next (h.trans hu.walked.advance_eq), hu.walked.loop_frame⟩
  · have runs := putsFrom_runs (s.reg 0#3) s
    exact ⟨_, rfl, runs, runs.frame⟩
  · exact ⟨_, putsFrom_runs a { s with waiting := none }, step_of_suspended hf hw⟩
  · obtain ⟨t, hstep, endless⟩ := hs.step_of_endless_puts hd ⟨hin, hmem⟩
    obtain ⟨hloaded, -, hidle⟩ := hs
    rw [hostRun_of_loaded hloaded hidle]
    exact runLoop_of_step_endless hstep endless k

end Sys2Proof
end

section
/-! SUPPORT and PROOFS of the exception's statement (`60_exceptions.md`): which instruction raises
UnimplementedTrap. -/

namespace Sys2Proof

open Sys2Proof.Machine

/-- A plain trap term in canonical form was that term before: the others have become their services. -/
theorem Instr.eq_trap_of_canonical {i : Instr} {ign : BitVec 4} {vec : BitVec 8} (h : i.canonical = .trap ign vec) :
    i = .trap ign vec := by
  cases i with
  | trap ign' vec' =>
    rcases decodeTrap_cases ign' vec' with ⟨-, plain⟩ | rfl | rfl | rfl | rfl | rfl | rfl
    · exact plain.symm.trans h
    all_goals cases h
  | _ => exact h

/-- The six service vectors are the range 0x20..0x25 (log entry 14). -/
theorem Machine.not_mem_serviceVectors_iff {vec : BitVec 8} :
    vec ∉ serviceVectors ↔ vec.toNat < 0x20 ∨ 0x25 < vec.toNat := by
  refine ⟨fun noService => ?_, not_mem_serviceVectors⟩
  by_contra inRange
  have service : ∀ k < 6, BitVec.ofNat 8 (0x20 + k) ∈ serviceVectors := by decide
  have hvec : BitVec.ofNat 8 (0x20 + (vec.toNat - 0x20)) = vec := by
    rw [Nat.add_sub_of_le (by omega), BitVec.ofNat_toNat, BitVec.setWidth_eq]
  exact noService (hvec ▸ service (vec.toNat - 0x20) (by omega))

/-- The fatal path is the only outcome that sets the latch (R118, R211). -/
theorem Machine.Executed.trap_of_fault {i : Instr} {s t : State} (h : Executed i s t) (hs : s.fault = none)
    (ht : t.fault.isSome = true) : ∃ ign vec, i = .trap ign vec ∧ vec ∉ serviceVectors := by
  have changed : t.fault ≠ s.fault := fun same => by simp [same, hs] at ht
  cases h with
  | fatal ign vec isTrap noService => exact ⟨ign, vec, isTrap, noService⟩
  | result _ _ u walk | stored _ _ u walk | advanced u walk | characterRead _ u walk | suspended _ u walk =>
    exact absurd walk.fault changed
  | jumped | linked | halted => exact absurd rfl changed

/-- Settles O53: only the fatal path sets the latch, and a TRAP takes it exactly if its vector names no service. -/
theorem onlyTrapRaises : Obligations.OnlyTrapRaises := by
  intro i s t hs h
  constructor
  · intro ht
    obtain ⟨g, vec, isTrap, noService⟩ := (exec_cases h).trap_of_fault hs ht
    exact ⟨g, vec, Instr.eq_trap_of_canonical isTrap, not_mem_serviceVectors_iff.1 noService⟩
  · rintro ⟨g, vec, rfl, outside⟩
    rw [exec_trap_of_not_service (not_mem_serviceVectors outside)] at h
    cases h
    rfl

end Sys2Proof
end

section
/-! PROOF of Reset's statement (`70_reset_and_hazards.md`). -/

namespace Sys2Proof

open Sys2Proof.Machine

/-- Settles O47: an idle machine's Reset answers `resetFields`, a record update of the four named fields, so every other
field is the old one; the machine stays idle because it was idle before. -/
theorem resetOperation : Obligations.ResetOperation := by
  intro s idle
  have answered : hostReset s = .next (resetFields s) := whenIdle_of_waiting_none idle _
  exact ⟨_, answered, rfl, rfl, rfl, rfl, fun _ => rfl, fun _ => rfl, rfl, ⟨rfl, rfl⟩, idle, rfl⟩

end Sys2Proof
end

section
/-! PROOF of the statement of the spec's example words (`30_encoding.md`). -/

namespace Sys2Proof

/-- Settles O6: eleven of the words are the encoder's own, so the round trip decodes them; the three others have ignored
bits that the encoder does not write, and decode by the lemma of their layout, whatever those bits are. -/
theorem specWordsDecode : Obligations.SpecWordsDecode := by
  have addWord : 0x105A#16 = operateWord 0x1#4 0#3 1#3 0#1 (0b11#2 ++ 2#3) := by decide
  have rtiWord : 0x8ABC#16 = 0x8#4 ++ 0xABC#12 := by decide
  have haltWord : 0xFF25#16 = Machine.trapWord 0xF#4 Machine.vecHalt := by decide
  have add : decode 0x105A#16 = .addReg 0#3 1#3 2#3 := by
    rw [addWord, decode_add, if_neg (by decide), extractLsb'_low_register]
  have rti : decode 0x8ABC#16 = .rti := by rw [rtiWord, decode_rti]
  have halt : decode 0xFF25#16 = .halt := by
    rw [haltWord, decode_trapWord]
    rfl
  refine ⟨?_, add, ?_, ?_, ?_, ?_, ?_, ?_, ?_, ?_, ?_, rti, halt, ?_⟩
  all_goals exact decode_of_eq_encode (by decide) rfl

end Sys2Proof
end
